-- ==== Sys2Proof/Word.lean ====
section
/-! DEFINITION. The word types of the block and the value an input port carries (rules R5, R8, R12). -/

namespace Sys2Proof

/-- An 8-bit value: a data byte, a parity byte, a syndrome (rules R5, R27). Bit 0 is the least significant (R8). -/
abbrev Byte := BitVec 8

/-- A 16-bit value: a codeword, an error pattern, a row of `H` (rules R5, R27). -/
abbrev Word := BitVec 16

/-- A value as the outside puts it on a bus: how many wires it has and the unsigned number on them. Rule R53: the
block has no byte order, so an input word is never laid out in bytes. -/
structure BusWord where
  width : Nat
  value : Nat
  deriving DecidableEq, Repr

end Sys2Proof
end

