-- ==== Sys2Proof/Syntax.lean ====
section
/-! DEFINITION. The seven operations of rule R71, one constructor per row of the operation table, each with its input
word as its operand (rule R77: the operand is the input word itself). -/

namespace Sys2Proof

/-- An operation and the value applied to its input. -/
inductive Instr where
  /-- PARGEN (R90): data byte to parity byte. -/
  | pargen (d : Byte)
  /-- ENCODE (R91): data byte to codeword. -/
  | encode (d : Byte)
  /-- SYND (R110): received codeword to syndrome. -/
  | synd (c : Word)
  /-- EPLOOK (R130): table address to error pattern. -/
  | eplook (a : Byte)
  /-- CORR (R150): codeword and error pattern to corrected codeword. -/
  | corr (c e : Word)
  /-- EXTRACT (R151): corrected codeword to data byte. -/
  | extract (cc : Word)
  /-- DECODE (R152): received codeword to data byte. -/
  | decode (c : Word)
  deriving DecidableEq, Repr

end Sys2Proof
end

