-- ==== Sys2Proof/WellFormed.lean ====
section
/-! DEFINITION. When a word fits the port it is applied to (rules R5, R71, R79). An `Instr` carries operands of the
ports' own widths and every value of them is legal (R78), so the checks stand on the raw side: the place of
application and the bus word. -/

namespace Sys2Proof

/-- The place at which a value is applied together with the output that is read there: what selects an operation,
since no bit of the input word does (rule R70). One per row of the operation table. -/
inductive Op where
  | pargen | encode | synd | eplook | corr | extract | decode
  deriving DecidableEq, Repr

/-- The width of the operation's input word (rule R71, column "length"; rule R79: the one fixed length). -/
def Op.width : Op → Nat
  | .pargen => 8
  | .encode => 8
  | .synd => 16
  | .eplook => 8
  | .corr => 32
  | .extract => 16
  | .decode => 16

/-- The number on the bus is one its wires can carry. -/
abbrev BusWord.Fits (w : BusWord) : Prop := w.value < 2 ^ w.width

/-- A value the outside applies, and where. -/
structure Applied where
  op : Op
  word : BusWord
  deriving DecidableEq, Repr

/-- The applied word has the port's width (R71) and is a value of that width (R12). -/
abbrev Applied.WellFormed (a : Applied) : Prop :=
  a.word.width = a.op.width ∧ a.word.Fits

/-- The operation an instruction stands for. -/
def Instr.op : Instr → Op
  | .pargen _ => .pargen
  | .encode _ => .encode
  | .synd _ => .synd
  | .eplook _ => .eplook
  | .corr _ _ => .corr
  | .extract _ => .extract
  | .decode _ => .decode

end Sys2Proof
end

