-- ==== Sys2Proof/Decode.lean ====
section
/-! DEFINITION. From an applied word to an operation with its operands, and back. Rule R70: nothing is decoded in the
block; the place of application selects the operation and the input word is all operand (formats DATA8, CW16, SYN8,
CWPAT32 of rule R81). The two refusals are of words no port can carry (log entry 7). -/

namespace Sys2Proof

/-- Why an applied word is no input of the operation's port. -/
inductive DecodeError where
  /-- The word's width is not the width of the operation's input (R71, R79). -/
  | wrongWidth
  /-- The number needs more wires than the word has (R12). -/
  | tooWide
  deriving DecidableEq, Repr

/-- The operand fields of an input word, by the field ranges of the operation table: the whole word, but for CORR,
whose `c` is bits 31..16 and whose `e` is bits 15..0. -/
def operands (op : Op) (v : Nat) : Instr :=
  match op with
  | .pargen => .pargen (BitVec.ofNat 8 v)
  | .encode => .encode (BitVec.ofNat 8 v)
  | .synd => .synd (BitVec.ofNat 16 v)
  | .eplook => .eplook (BitVec.ofNat 8 v)
  | .corr => .corr (BitVec.ofNat 16 (v / 2 ^ 16)) (BitVec.ofNat 16 v)
  | .extract => .extract (BitVec.ofNat 16 v)
  | .decode => .decode (BitVec.ofNat 16 v)

/-- The operation with its operands, or why the word is no input of it. -/
def decodeInstr (op : Op) (w : BusWord) : Except DecodeError Instr :=
  if w.width ≠ op.width then .error .wrongWidth
  else if 2 ^ w.width ≤ w.value then .error .tooWide
  else .ok (operands op w.value)

/-- The number on the input bus of an operation (rule R80: the encoding of a script line is the value of its input
word, for CORR the pair). -/
def inputValue : Instr → Nat
  | .pargen d => d.toNat
  | .encode d => d.toNat
  | .synd c => c.toNat
  | .eplook a => a.toNat
  | .corr c e => c.toNat * 2 ^ 16 + e.toNat
  | .extract cc => cc.toNat
  | .decode c => c.toNat

/-- Where an operation is applied, and the word applied there. -/
def encodeInstr (i : Instr) : Applied :=
  ⟨i.op, ⟨i.op.width, inputValue i⟩⟩

/-- The operation that stands for a row length when nothing but the length is known. No bit and no length selects among
rows of one length (R70), so the source's own two functions are taken for 8 and 16 bits. DESIGN CHOICE, log entry 9. -/
def opOfLength (nbits : Nat) : Op :=
  if nbits = 16 then .decode else if nbits = 32 then .corr else .encode

/-- The low `nbits` bits of `w` on a bus of `nbits` wires. -/
def tableWord (nbits w : Nat) : BusWord := ⟨nbits, w % 2 ^ nbits⟩

/-- The place and the word that stand for `nbits` bits `w` of a table row (log entry 9). -/
def tableApplied (nbits w : Nat) : Applied := ⟨opOfLength nbits, tableWord nbits w⟩

/-- The operation read from the `nbits` bits `w` of a table row, `none` where no operation has that length. -/
def decodeTableWord (nbits w : Nat) : Option Instr :=
  match decodeInstr (tableApplied nbits w).op (tableApplied nbits w).word with
  | .ok i => some i
  | .error _ => none

end Sys2Proof
end

