-- ==== Sys2Proof/Config.lean ====
section
/-! DEFINITION. What an instance of the block fixes: its three constant tables (rules R6, R21, R22, R24) and the two
named parameters that no rule reads (rule R7). No source gives a value of any of them, so each is opaque. -/

namespace Sys2Proof

/-- The three constant tables of an instance (rule R6). `P[i]` and `H[i]` are indexed by the source's row number,
`LUT` by the syndrome. -/
structure Tables where
  /-- ParityMatrix: bit `b` of `P[i]` says that data bit `b` feeds the tree of parity index `i` (R21). -/
  P : Vector Byte 8
  /-- ParityCheckMatrix: bit `b` of `H[i]` says that codeword bit `b` feeds the tree of syndrome row `i` (R22). -/
  H : Vector Word 8
  /-- CorrectionTable: the error pattern of each syndrome (R24, R50). -/
  LUT : Vector Word 256
  deriving DecidableEq, Repr, Inhabited

/-- The tables of the instance (rule R6). DESIGN CHOICE, log entry 1: opaque, so nothing can be proved of their values.
Safe. -/
opaque Config.tables : Tables

/-- `T_PD`, the settling time of the outputs (rules R7, R224): read by no rule and by no definition. -/
opaque Config.T_PD : Nat

/-- `CW_SERIAL_ORDER` (rules R7, R53): which codeword bit a channel outside the block sends `k`-th. Read by no rule and
by no definition. -/
opaque Config.CW_SERIAL_ORDER : Vector (Fin 16) 16

end Sys2Proof
end

