-- ==== Sys2Proof/Machine/Gates.lean ====
section
/-! DEFINITION. The gates of the block: the reduction `redxor_W` and the weight `popcount` of rule R10, the single-bit
value `1 << p`, and the assembly of eight row results into a byte, row 0 at the most significant end (rules R9, R73). -/

namespace Sys2Proof.Machine

/-- The exclusive-or of bits `n-1` to 0 of `v`. -/
def redxorLow {w : Nat} (v : BitVec w) : Nat → Bool
  | 0 => false
  | n + 1 => v.getLsbD n ^^ redxorLow v n

/-- `redxor_W(v)`: the exclusive-or of all `W` bits of `v` (rule R10; C6: one definition for every width). -/
def redxor {w : Nat} (v : BitVec w) : Bool := redxorLow v w

/-- How many of bits `n-1` to 0 of `v` are 1. -/
def popcountLow {w : Nat} (v : BitVec w) : Nat → Nat
  | 0 => 0
  | n + 1 => (v.getLsbD n).toNat + popcountLow v n

/-- `popcount(v)`, the weight of `v` (rule R10): used in laws and premises only. -/
def popcount {w : Nat} (v : BitVec w) : Nat := popcountLow v w

/-- `1 << p` on `w` wires (rules R10, R74). -/
def oneBit (w p : Nat) : BitVec w := 1#w <<< p

/-- The byte whose bit `7-i` is the result of row `i` (rules R9, R73). -/
def packRows (row : Fin 8 → Bool) : Byte :=
  BitVec.ofBoolListBE [row 0, row 1, row 2, row 3, row 4, row 5, row 6, row 7]

end Sys2Proof.Machine
end

