-- ==== Sys2Proof/Machine/Operands.lean ====
section
/-! DEFINITION. The operand forms of rule R77: the places where a width changes. Nothing is sign-extended or
zero-extended. -/

namespace Sys2Proof.Machine

/-- `{p, d}`: the parity byte in bits 15..8, the data byte in bits 7..0 (rules R28, R72). -/
def joinCodeword (p d : Byte) : Word := p ++ d

/-- The parity byte `c[15:8]` of a codeword (rule R28). -/
def parityByte (c : Word) : Byte := c.extractLsb' 8 8

/-- The data byte `c[7:0]` of a codeword (rule R28). -/
def dataByte (c : Word) : Byte := c.extractLsb' 0 8

end Sys2Proof.Machine
end

