-- ==== Sys2Proof/Machine/Units.lean ====
section
/-! DEFINITION. The functions of the four units and of the two composites (files 40 to 43 of the spec). Each takes the
constants it reads and no other (rules R95, R114, R152), and assumes nothing of them (rules R6, R26). -/

namespace Sys2Proof.Machine

/-- PARGEN (rule R90, mask-and-reduce form): bit `7-i` is `redxor_8(P[i] & d)`. -/
def pargen (P : Vector Byte 8) (d : Byte) : Byte :=
  packRows fun i => redxor (P[i] &&& d)

/-- The parity of index `i` by the source's loop (rule R90, first pseudocode): the exclusive-or over `j` = 0..7 of
`d[7-j] & P[i][7-j]`, from 0. Rule R92 says that it is bit `7-i` of PARGEN. -/
def parityLoop (P : Vector Byte 8) (d : Byte) (i : Fin 8) : Bool :=
  (List.range 8).foldl (fun par j => par ^^ (d.getLsbD (7 - j) && P[i].getLsbD (7 - j))) false

/-- ENCODE (rule R91): the parity byte above the unchanged data byte. -/
def encodeByte (P : Vector Byte 8) (d : Byte) : Word :=
  joinCodeword (pargen P d) d

/-- SYND (rule R110): bit `7-i` is `redxor_16(H[i] & c)`. -/
def synd (H : Vector Word 8) (c : Word) : Byte :=
  packRows fun i => redxor (H[i] &&& c)

/-- EPLOOK (rule R130): the table entry at address `a`; every address has one (R131). -/
def eplook (LUT : Vector Word 256) (a : Byte) : Word :=
  LUT[a.toNat]'(a.isLt)

/-- CORR (rule R150): the codeword with the pattern exclusive-ored in. -/
def corr (c e : Word) : Word := c ^^^ e

/-- EXTRACT (rule R151): the low byte. -/
def extract (cc : Word) : Byte := dataByte cc

/-- DECODE (rule R152): the four steps in series, once (R153). -/
def decodeCodeword (H : Vector Word 8) (LUT : Vector Word 256) (c : Word) : Byte :=
  extract (corr c (eplook LUT (synd H c)))

end Sys2Proof.Machine
end

