-- ==== Sys2Proof/Machine/Ports.lean ====
section
/-! DEFINITION. The ports of the block (rule R75) and the pins of units used alone (its last paragraph), and the values
their wires have when an input is driven. -/

namespace Sys2Proof.Machine

/-- The encode ports of rule R75: `enc_data`, `enc_parity`, `enc_codeword`. -/
structure EncodePorts where
  data : Byte
  parity : Byte
  codeword : Word
  deriving DecidableEq, Repr

/-- The decode ports of rule R75: `dec_codeword`, `dec_syndrome`, `dec_pattern`, `dec_corrected`, `dec_data`. -/
structure DecodePorts where
  codeword : Word
  syndrome : Byte
  pattern : Word
  corrected : Word
  data : Byte
  deriving DecidableEq, Repr

/-- The pins of an error-pattern table used alone (rules R75, R130). -/
structure RomPins where
  address : Byte
  pattern : Word
  deriving DecidableEq, Repr

/-- The pins of an error corrector used alone (rules R75, R150). -/
structure CorrectorPins where
  codeword : Word
  pattern : Word
  corrected : Word
  deriving DecidableEq, Repr

/-- The pins of the output wiring used alone (rules R75, R151). -/
structure ExtractorPins where
  corrected : Word
  data : Byte
  deriving DecidableEq, Repr

/-- The values on the encode path when `d` is applied (rules R75, R90, R91). -/
def EncodePorts.of (P : Vector Byte 8) (d : Byte) : EncodePorts :=
  ⟨d, pargen P d, encodeByte P d⟩

/-- The values on the decode path when `c` is applied: the three units in series, one pass (rules R75, R152, R153). -/
def DecodePorts.of (H : Vector Word 8) (LUT : Vector Word 256) (c : Word) : DecodePorts :=
  let s := synd H c
  let e := eplook LUT s
  let cc := corr c e
  ⟨c, s, e, cc, extract cc⟩

/-- The values on a lone table's pins at address `a` (rule R130). -/
def RomPins.of (LUT : Vector Word 256) (a : Byte) : RomPins := ⟨a, eplook LUT a⟩

/-- The values on a lone corrector's pins (rule R150). -/
def CorrectorPins.of (c e : Word) : CorrectorPins := ⟨c, e, corr c e⟩

/-- The values on the lone output wiring's pins (rule R151). -/
def ExtractorPins.of (cc : Word) : ExtractorPins := ⟨cc, extract cc⟩

end Sys2Proof.Machine
end

