-- ==== Sys2Proof/Machine/State.lean ====
section
/-! DEFINITION. The state: the constants of the instance, the values on the wires (rule R75), and the words the outside
will apply. The block has no mutable state of its own (rule R20): every output below is a function of the inputs beside
it (`Safety`'s `Settled`, which every step keeps). -/

namespace Sys2Proof.Machine

/-- Why a step stops with a fault: never. Rule R200: the set of exceptions is empty, and no operation returns a fault.
Safe and unsafe do not arise. -/
inductive Fault where
  deriving DecidableEq, Repr

/-- Why a step is refused. -/
inductive Refusal where
  /-- Raised by `exec` in the arm of an operation that has no meaning yet; no arm uses it. Safe. -/
  | notModelled (mnemonic : String)
  /-- Raised by `step` when the word to apply has not the width of the operation's input (R71); no such word can stand
  on a real port (N13), so nothing the hardware does is refused. Safe. -/
  | wrongWidth
  /-- Raised by `step` when the number to apply needs more wires than its word has (R12); as above. Safe. -/
  | tooWide
  deriving DecidableEq, Repr

/-- The state of the machine. -/
structure State where
  /-- The constants `P`, `H`, `LUT` of this instance (R6, R26): read by every operation, written by none. -/
  tables : Tables
  /-- The encode path's ports. -/
  enc : EncodePorts
  /-- The decode path's ports. -/
  dec : DecodePorts
  /-- A table used alone. -/
  rom : RomPins
  /-- A corrector used alone. -/
  corrector : CorrectorPins
  /-- The output wiring used alone. -/
  extractor : ExtractorPins
  /-- MODEL'S OWN (log entry 2): the words the outside will apply, oldest first. -/
  applied : List Applied
  deriving DecidableEq, Repr

/-- The machine at power-up (rules R36, R221): the constants are the parameter's; every input is 0, DESIGN CHOICE, log
entry 4, unsafe; every output is the function of its inputs; nothing is applied yet. -/
def State.reset : State where
  tables := Config.tables
  enc := .of Config.tables.P 0
  dec := .of Config.tables.H Config.tables.LUT 0
  rom := .of Config.tables.LUT 0
  corrector := .of 0 0
  extractor := .of 0
  applied := []

end Sys2Proof.Machine
end

