-- ==== Sys2Proof/Machine/Ops.lean ====
section
/-! DEFINITION. The named operations over State: a value driven onto an input, after which every wire that depends on
it has its value (rules R36, R70, R75, R221), and the outside's next word taken from its list. There is no register
file, no writable memory (R52) and no trap to enter or return from (R200 to R204), so no operation for them exists. -/

namespace Sys2Proof.Machine

/-- `d` on `enc_data`: both outputs of the encode path follow (R75). -/
def State.driveEncData (s : State) (d : Byte) : State :=
  { s with enc := .of s.tables.P d }

/-- `c` on `dec_codeword`: all four outputs of the decode path follow (R75, R153). -/
def State.driveDecCodeword (s : State) (c : Word) : State :=
  { s with dec := .of s.tables.H s.tables.LUT c }

/-- `a` on the address of a table used alone (R130). -/
def State.driveRom (s : State) (a : Byte) : State :=
  { s with rom := .of s.tables.LUT a }

/-- `c` and `e` on the inputs of a corrector used alone (R150). -/
def State.driveCorrector (s : State) (c e : Word) : State :=
  { s with corrector := .of c e }

/-- `cc` on the input of the output wiring used alone (R151). -/
def State.driveExtractor (s : State) (cc : Word) : State :=
  { s with extractor := .of cc }

/-- The word the outside applies next, and the state with the rest of its list. -/
def State.nextApplied (s : State) : Option (Applied × State) :=
  match s.applied with
  | [] => none
  | a :: rest => some (a, { s with applied := rest })

/-- The state with `a` put before everything else the outside will apply. -/
def State.applyNext (s : State) (a : Applied) : State :=
  { s with applied := a :: s.applied }

/-- The refusal that stands for a word which is no input of its port. -/
def refusalOf : DecodeError → Refusal
  | .wrongWidth => .wrongWidth
  | .tooWide => .tooWide

end Sys2Proof.Machine
end

