-- ==== Sys2Proof/Machine/ErrorCorrector.lean ====
section
/-! DEFINITION. The error_corrector unit, used alone: CORR and EXTRACT; and the composite DECODE, the three decode units
in series (file 43 of the spec; log entries 3 and 5). -/

namespace Sys2Proof.Machine

/-- CORR (rule R150): the corrected codeword is `c ^ e`. -/
def execCorr (c e : Word) (s : State) : Host.Outcome State Fault Refusal :=
  .next (s.driveCorrector c e)

/-- EXTRACT (rule R151): the data byte is the low byte of `cc`. -/
def execExtract (cc : Word) (s : State) : Host.Outcome State Fault Refusal :=
  .next (s.driveExtractor cc)

/-- DECODE (rule R152): `dec_data` is the decoded byte, with `dec_syndrome`, `dec_pattern`, `dec_corrected` beside it. -/
def execDecode (c : Word) (s : State) : Host.Outcome State Fault Refusal :=
  .next (s.driveDecCodeword c)

end Sys2Proof.Machine
end

