-- ==== Sys2Proof/Machine/ErrorPatternRom.lean ====
section
/-! DEFINITION. The error_pattern_lookup_rom unit, used alone: EPLOOK (file 42 of the spec; log entry 3). -/

namespace Sys2Proof.Machine

/-- EPLOOK (rule R130): the pattern is the entry at address `a`. -/
def execEplook (a : Byte) (s : State) : Host.Outcome State Fault Refusal :=
  .next (s.driveRom a)

end Sys2Proof.Machine
end

