-- ==== Sys2Proof/Machine/ParityGenerator.lean ====
section
/-! DEFINITION. The parity_generator unit: PARGEN and ENCODE (file 40 of the spec). Both apply a data byte at
`enc_data`; they differ in the output that is read (`enc.parity`, `enc.codeword`; log entry 5). -/

namespace Sys2Proof.Machine

/-- PARGEN (rule R90): `enc_parity` is the parity byte of `d`. -/
def execPargen (d : Byte) (s : State) : Host.Outcome State Fault Refusal :=
  .next (s.driveEncData d)

/-- ENCODE (rule R91): `enc_codeword` is the codeword of `d`. -/
def execEncode (d : Byte) (s : State) : Host.Outcome State Fault Refusal :=
  .next (s.driveEncData d)

end Sys2Proof.Machine
end

