-- ==== Sys2Proof/Machine/SyndromeCalculator.lean ====
section
/-! DEFINITION. The syndrome_calculator unit: SYND (file 41 of the spec). The codeword is presented unchanged to the
rest of the decode path too (rule R114), which follows (rule R75; log entry 5). -/

namespace Sys2Proof.Machine

/-- SYND (rule R110): `dec_syndrome` is the syndrome of `c`. -/
def execSynd (c : Word) (s : State) : Host.Outcome State Fault Refusal :=
  .next (s.driveDecCodeword c)

end Sys2Proof.Machine
end

