-- ==== Sys2Proof/Machine/Dispatch.lean ====
section
/-! DEFINITION. One evaluation: each operation's meaning. -/

namespace Sys2Proof.Machine

def exec (i : Instr) (s : State) : Host.Outcome State Fault Refusal :=
  match i with
  | .pargen d => Sys2Proof.Machine.execPargen d s
  | .encode d => Sys2Proof.Machine.execEncode d s
  | .synd c => Sys2Proof.Machine.execSynd c s
  | .eplook a => Sys2Proof.Machine.execEplook a s
  | .corr c e => Sys2Proof.Machine.execCorr c e s
  | .extract cc => Sys2Proof.Machine.execExtract cc s
  | .decode c => Sys2Proof.Machine.execDecode c s

end Sys2Proof.Machine
end

