-- ==== Sys2Proof/Machine/Step.lean ====
section
/-! DEFINITION. One step: the outside's next word is applied at its place, and the operation it is there is evaluated.
With no word left to apply, the inputs hold their values and so does everything (rules R20, R221). -/

namespace Sys2Proof.Machine

/-- One step of the machine. -/
def step (s : State) : Host.Outcome State Fault Refusal :=
  match s.nextApplied with
  | none => .next s
  | some (a, t) =>
    match decodeInstr a.op a.word with
    | .ok i => exec i t
    | .error e => .refused (refusalOf e)

/-- `s` with the operation that `nbits` bits `w` of a table row stand for put first among what the outside applies (log
entries 2 and 9). -/
def State.withFetchWord (s : State) (nbits w : Nat) : State :=
  s.applyNext (tableApplied nbits w)

end Sys2Proof.Machine
end

