-- ==== Sys2Proof/Machine/Flags.lean ====
section
/-! DEFINITION. Flags: the block has none and writes none (rules R31, R207). The two Booleans below are what the spec
says a user may compute OUTSIDE the block from its ordinary outputs; no operation and no field of State uses them. -/

namespace Sys2Proof.Machine

/-- "error seen", computed outside the block: the syndrome is not zero (rules R31, R207). -/
def outerErrorSeen (syndrome : Byte) : Bool := syndrome != 0

/-- "the table declined", computed outside the block: a zero pattern with a nonzero syndrome (rules R133, R207). -/
def outerDeclined (syndrome : Byte) (pattern : Word) : Bool := pattern == 0 && syndrome != 0

end Sys2Proof.Machine
end

