-- ==== Sys2Proof/Machine/Premises.lean ====
section
/-! DEFINITION. The named premises on the constants (rules R23 to R25, R179), as decidable predicates (rule R222). No
operation checks them (R26, R206); claims carry them as hypotheses. -/

namespace Sys2Proof.Machine

/-- `0x80 >> i`: the byte with only bit `7-i` set, the identity block's row `i` (rule R23). -/
def identityRow (i : Fin 8) : Byte := 0x80#8 >>> i.val

/-- First line of `WF_H` (rule R23): the high byte of `H[i]` selects parity index `i` alone. -/
abbrev HasIdentityBlock (H : Vector Word 8) : Prop :=
  ∀ i : Fin 8, parityByte H[i] = identityRow i

/-- `WF_H` (rule R23, row form, conflict C1): `H[i] = {0x80 >> i, P[i]}`. -/
abbrev WF_H (T : Tables) : Prop :=
  ∀ i : Fin 8, T.H[i] = joinCodeword (identityRow i) T.P[i]

/-- `WF_LUT0` (rule R24): the entry of syndrome 0 is the zero pattern. -/
abbrev WF_LUT0 (T : Tables) : Prop :=
  eplook T.LUT 0#8 = 0#16

/-- The syndrome of the single-bit value at position `p` (rules R112, R179). -/
def oneBitSynd (H : Vector Word 8) (p : Fin 16) : Byte := synd H (oneBit 16 p)

/-- `WF_LUT_SB` (rule R25 clause 1): a syndrome of exactly one single-bit error has that bit as its entry. -/
abbrev WF_LUT_SB (T : Tables) : Prop :=
  ∀ p : Fin 16, (∀ q : Fin 16, q ≠ p → oneBitSynd T.H q ≠ oneBitSynd T.H p) →
    eplook T.LUT (oneBitSynd T.H p) = oneBit 16 p

/-- `SEC_P` (rule R179): the sixteen single-bit syndromes are nonzero and pairwise distinct. -/
abbrev SEC_P (T : Tables) : Prop :=
  (∀ p : Fin 16, oneBitSynd T.H p ≠ 0#8) ∧
    ∀ p q : Fin 16, p ≠ q → oneBitSynd T.H p ≠ oneBitSynd T.H q

/-- `WF_LUT_COSET` (rule R25, optional): every entry is zero or an error pattern whose own syndrome is its address. -/
abbrev WF_LUT_COSET (T : Tables) : Prop :=
  ∀ a : Fin 256, eplook T.LUT (BitVec.ofFin a) = 0#16 ∨
    synd T.H (eplook T.LUT (BitVec.ofFin a)) = BitVec.ofFin a

/-- Check 3 of rule R222, over all 256 bytes: the zero-syndrome invariant and the round trip. -/
abbrev RoundTripCheck (T : Tables) : Prop :=
  ∀ d : Fin 256, synd T.H (encodeByte T.P (BitVec.ofFin d)) = 0#8 ∧
    decodeCodeword T.H T.LUT (encodeByte T.P (BitVec.ofFin d)) = BitVec.ofFin d

/-- The exhaustive form of check 5 of rule R222, over all 256 bytes and 16 positions. -/
abbrev SingleFlipCheck (T : Tables) : Prop :=
  ∀ (d : Fin 256) (p : Fin 16),
    decodeCodeword T.H T.LUT (encodeByte T.P (BitVec.ofFin d) ^^^ oneBit 16 p) = BitVec.ofFin d

/-- Column `i` of `P` as a byte with row 0 at bit 7: bit `7-j` is `P[j][7-i]` (rule R172; the column reading that
conflict C1 rejects). -/
def columnByte (P : Vector Byte 8) (i : Fin 8) : Byte :=
  packRows fun j => P[j].getLsbD (7 - i.val)

/-- `P` is symmetric: `P[i][7-j] = P[j][7-i]` (rule R23). Never assumed (N1). -/
abbrev SymmetricP (P : Vector Byte 8) : Prop :=
  ∀ i j : Fin 8, P[i].getLsbD (7 - j.val) = P[j].getLsbD (7 - i.val)

end Sys2Proof.Machine
end

