-- ==== Sys2Proof/Safety.lean ====
section
/-! DEFINITION. The terms claims are made in: wires that carry their functions' values, valid codewords, the residual of
an error (rule R175), the part of the block an operation drives, and a straight-line script of operations (rule R80). -/

namespace Sys2Proof.Machine

/-- Every output is the function of the inputs beside it, and the block is wired as rule R75 says (rules R36, R221). -/
structure State.Settled (s : State) : Prop where
  encParity : s.enc.parity = pargen s.tables.P s.enc.data
  encCodeword : s.enc.codeword = joinCodeword s.enc.parity s.enc.data
  decSyndrome : s.dec.syndrome = synd s.tables.H s.dec.codeword
  decPattern : s.dec.pattern = eplook s.tables.LUT s.dec.syndrome
  decCorrected : s.dec.corrected = corr s.dec.codeword s.dec.pattern
  decData : s.dec.data = extract s.dec.corrected
  romPattern : s.rom.pattern = eplook s.tables.LUT s.rom.address
  corrected : s.corrector.corrected = corr s.corrector.codeword s.corrector.pattern
  extracted : s.extractor.data = extract s.extractor.corrected

/-- The invariant of the machine: settled wires, and only words that fit their ports waiting to be applied (R12). -/
structure State.Inv (s : State) : Prop where
  settled : s.Settled
  inputsFit : ∀ a ∈ s.applied, a.WellFormed

/-- A valid codeword: the parity byte is that of the data byte (rule R173). -/
abbrev Valid (P : Vector Byte 8) (c : Word) : Prop :=
  parityByte c = pargen P (dataByte c)

/-- The residual of an error `x`: what is left of it after the table's pattern for its syndrome (rule R175). -/
def residualError (T : Tables) (x : Word) : Word :=
  x ^^^ eplook T.LUT (synd T.H x)

/-- The separate pieces of the block, none of whose wires are another's (rules R20, R63). -/
inductive Part where
  | encodePath | decodePath | lookup | corrector | extractor
  deriving DecidableEq, Repr

/-- The piece an operation drives (rules R71, R75). -/
def Part.of : Instr → Part
  | .pargen _ => .encodePath
  | .encode _ => .encodePath
  | .synd _ => .decodePath
  | .eplook _ => .lookup
  | .corr _ _ => .corrector
  | .extract _ => .extractor
  | .decode _ => .decodePath

/-- A straight-line script of evaluations, in order (rule R80): it stops where an evaluation stops. -/
def runScript : List Instr → State → Host.Outcome State Fault Refusal
  | [], s => .next s
  | i :: rest, s =>
    match exec i s with
    | .next t => runScript rest t
    | .fault r => .fault r
    | .refused r => .refused r

end Sys2Proof.Machine
end

