-- ==== Sys2Proof/Machine/Guarantees.lean ====
section
/-! DEFINITION. The table of laws and premises of rule R183, row by row, and the words of the source's worked example (rule
R181). Every law is about arbitrary tables: `Config.tables` is opaque, so nothing here is a claim about the repository's own
instance (R183, last paragraph; conflict C3). -/

namespace Sys2Proof.Machine

/-- The rows of rule R183's table. -/
inductive Law where
  /-- `PARGEN`, `ENCODE`, `SYND` linear (R170, R171). -/
  | linear
  /-- `ENCODE(d)[7:0] = d` (R91). -/
  | systematic
  /-- `SYND(c) = c[15:8] ^ PARGEN(c[7:0])` (R111). -/
  | parityDifference
  /-- Zero-syndrome invariant (R172). -/
  | zeroSyndrome
  /-- Zero syndrome iff valid (R173). -/
  | zeroIffValid
  /-- Round trip (R174). -/
  | roundTrip
  /-- Error decomposition (R175). -/
  | errorDecomposition
  /-- Single-bit correction at position `p` (R176). -/
  | flipAt (p : Fin 16)
  /-- Single-bit correction at all positions (R176). -/
  | flipAnywhere
  /-- No-op on zero syndrome (R177). -/
  | noOp
  /-- Corrected word valid or unchanged (R182). -/
  | validOrUnchanged
  deriving DecidableEq, Repr

/-- The column "premises" of rule R183's table; "always" is no premise. -/
def Law.Premises (T : Tables) : Law → Prop
  | .linear => True
  | .systematic => True
  | .parityDifference => WF_H T
  | .zeroSyndrome => WF_H T
  | .zeroIffValid => WF_H T
  | .roundTrip => WF_H T ∧ WF_LUT0 T
  | .errorDecomposition => WF_H T
  | .flipAt p => WF_H T ∧ eplook T.LUT (oneBitSynd T.H p) = oneBit 16 p
  | .flipAnywhere => WF_H T ∧ SEC_P T ∧ WF_LUT_SB T
  | .noOp => WF_LUT0 T
  | .validOrUnchanged => WF_H T ∧ WF_LUT_COSET T

/-- The values on the decode path of an instance (rule R152). -/
def decodePath (T : Tables) (c : Word) : DecodePorts := .of T.H T.LUT c

/-- A single flipped bit is removed, whatever the byte (rule R176). -/
def FlipRemoved (T : Tables) (p : Fin 16) : Prop :=
  ∀ d, (decodePath T (encodeByte T.P d ^^^ oneBit 16 p)).data = d ∧
    (decodePath T (encodeByte T.P d ^^^ oneBit 16 p)).corrected = encodeByte T.P d

/-- The column "law" of rule R183's table, each law as its own rule states it. -/
def Law.Holds (T : Tables) : Law → Prop
  | .linear =>
    (∀ a b, pargen T.P (a ^^^ b) = pargen T.P a ^^^ pargen T.P b ∧
      encodeByte T.P (a ^^^ b) = encodeByte T.P a ^^^ encodeByte T.P b) ∧
    ∀ x y, synd T.H (x ^^^ y) = synd T.H x ^^^ synd T.H y
  | .systematic => ∀ d, dataByte (encodeByte T.P d) = d
  | .parityDifference => ∀ c, synd T.H c = parityByte c ^^^ pargen T.P (dataByte c)
  | .zeroSyndrome => ∀ d, synd T.H (encodeByte T.P d) = 0
  | .zeroIffValid => ∀ c, synd T.H c = 0 ↔ Valid T.P c
  | .roundTrip => ∀ d, decodePath T (encodeByte T.P d) = ⟨encodeByte T.P d, 0, 0, encodeByte T.P d, d⟩
  | .errorDecomposition => ∀ d x,
    (decodePath T (encodeByte T.P d ^^^ x)).syndrome = synd T.H x ∧
    (decodePath T (encodeByte T.P d ^^^ x)).data = d ^^^ dataByte (residualError T x) ∧
    (decodePath T (encodeByte T.P d ^^^ x)).corrected = encodeByte T.P d ^^^ residualError T x
  | .flipAt p => FlipRemoved T p
  | .flipAnywhere => ∀ p, FlipRemoved T p
  | .noOp => ∀ c, synd T.H c = 0 → (decodePath T c).data = dataByte c ∧ (decodePath T c).corrected = c
  | .validOrUnchanged => ∀ c,
    ((decodePath T c).pattern ≠ 0 ∨ (decodePath T c).syndrome = 0 → Valid T.P (decodePath T c).corrected) ∧
    ((decodePath T c).pattern = 0 → (decodePath T c).corrected = c)

/-- `C` of the worked example (rule R181): the codeword of `0xAA`, whose high byte depends on `P` and is not given (N4). -/
def workedCodeword (P : Vector Byte 8) : Word := encodeByte P 0xAA

/-- The worked example's received word (rule R181): `C` with bit 13, parity index 2, flipped. -/
def workedReceived (P : Vector Byte 8) : Word := workedCodeword P ^^^ oneBit 16 13

/-- What rule R181 says of an instance: `C`'s layout, the flip's syndrome, its correction where the table has the bit, and
the clean decoding where entry 0 is zero. -/
structure WorkedExampleHolds (T : Tables) : Prop where
  layout : workedCodeword T.P = joinCodeword (pargen T.P 0xAA) 0xAA
  flipSyndrome : (decodePath T (workedReceived T.P)).syndrome = 0x20
  flipCorrected : eplook T.LUT 0x20 = 0x2000 →
    (decodePath T (workedReceived T.P)).data = 0xAA ∧
      (decodePath T (workedReceived T.P)).corrected = workedCodeword T.P
  clean : WF_LUT0 T →
    (decodePath T (workedCodeword T.P)).data = 0xAA ∧ (decodePath T (workedCodeword T.P)).syndrome = 0

end Sys2Proof.Machine
end

