-- ==== Sys2Proof/Certificates/Slice0/Obligations.lean ====
section
/-! DEFINITION. The statements for the provers, each with the rule of spec/ it formalises. In a statement about the
constants, `T` or `P`, `H`, `LUT` are arbitrary: a premise of rules R23 to R25 and R179 stands as a hypothesis wherever the
spec's law needs it (rule R183). -/

open Sys2Proof Sys2Proof.Machine

/-! ### Input words -/

/-- Laying out an operation's input word and reading it back gives the operation with every operand (R70, R77, R80). -/
def Obligations.DecodeOfEncode : Prop :=
  ∀ i : Instr, decodeInstr (encodeInstr i).op (encodeInstr i).word = .ok i

/-- Each place and word has one reading, and laying that reading out gives the place and the word back (R70, R79). -/
def Obligations.EncodeOfDecode : Prop :=
  ∀ (op : Op) (w : BusWord) (i : Instr), decodeInstr op w = .ok i → encodeInstr i = ⟨op, w⟩

/-- R78: every value of every input word is a legal operand, and the operation it stands for has a result in every
state. -/
def Obligations.EveryInputValueIsLegal : Prop :=
  ∀ (op : Op) (v : Nat), v < 2 ^ op.width →
    ∃ i, decodeInstr op ⟨op.width, v⟩ = .ok i ∧ i.op = op ∧ ∀ s, ∃ t, exec i s = .next t

/-- What is refused is a word of another width, or a number its wires cannot carry, each by its own name, and nothing
else (model's choice, log entry 7; R5, R12, R79). -/
def Obligations.OnlyMisfitsAreRejected : Prop :=
  ∀ (op : Op) (w : BusWord),
    (decodeInstr op w = .error .wrongWidth ↔ w.width ≠ op.width) ∧
    (decodeInstr op w = .error .tooWide ↔ w.width = op.width ∧ 2 ^ w.width ≤ w.value) ∧
    ((∃ i, decodeInstr op w = .ok i) ↔ (Applied.mk op w).WellFormed)

/-- Input words written out from the spec's own programs (95_test_vectors.md section 4; CORR's pair by R71). -/
def Obligations.InputWordsOfTheSpecsPrograms : Prop :=
  decodeInstr .encode ⟨8, 0b00111100⟩ = .ok (.encode 0x3C) ∧
  decodeInstr .pargen ⟨8, 0b10101010⟩ = .ok (.pargen 0xAA) ∧
  decodeInstr .synd ⟨16, 0b1000011010101010⟩ = .ok (.synd 0x86AA) ∧
  decodeInstr .eplook ⟨8, 0b00100000⟩ = .ok (.eplook 0x20) ∧
  decodeInstr .corr ⟨32, 0x86AA2000⟩ = .ok (.corr 0x86AA 0x2000) ∧
  decodeInstr .extract ⟨16, 0b1010011010101010⟩ = .ok (.extract 0xA6AA) ∧
  decodeInstr .decode ⟨16, 0b1100100100111100⟩ = .ok (.decode 0xC93C)

/-! ### The step -/

/-- A step evaluates the operation that the outside's next word is at its place, with that word taken from the list
(log entry 2: the list is the model's own). -/
def Obligations.StepRunsTheDecodedOperation : Prop :=
  ∀ (s : State) (a : Applied) (rest : List Applied) (i : Instr),
    s.applied = a :: rest → decodeInstr a.op a.word = .ok i → step s = exec i { s with applied := rest }

/-- With no word to apply nothing changes (R20, R221); a word of another width than its port's is refused as `wrongWidth`,
and a number its wires cannot carry as `tooWide`. The model's choice, log entries 2 and 7. -/
def Obligations.StepWithoutAnOperation : Prop :=
  (∀ s : State, s.applied = [] → step s = .next s) ∧
  ∀ (s : State) (a : Applied) (rest : List Applied), s.applied = a :: rest →
    (decodeInstr a.op a.word = .error .wrongWidth → step s = .refused .wrongWidth) ∧
    (decodeInstr a.op a.word = .error .tooWide → step s = .refused .tooWide)

/-- The word placed for the next step is what the next step evaluates, in the state it was placed in (log entry 9: the
length of a word selects the operation there; log entry 2). -/
def Obligations.PlacedWordIsEvaluatedNext : Prop :=
  ∀ (s : State) (nbits w : Nat),
    (∀ i, decodeTableWord nbits w = some i → step (s.withFetchWord nbits w) = exec i s) ∧
    (decodeTableWord nbits w = none ↔ nbits ≠ 8 ∧ nbits ≠ 16 ∧ nbits ≠ 32)

/-! ### Each operation's result -/

/-- PARGEN (R90): always completes and changes the encode ports only. Bit `7-i` of `enc_parity` is `redxor_8(P[i] & d)`,
which is what the source's loop over the data-bit positions gives; and the rule's corner cases. -/
def Obligations.PargenGivesTheParityByte : Prop :=
  ∀ (d : Byte) (s : State), ∃ t, exec (.pargen d) s = .next t ∧ t = { s with enc := t.enc } ∧
    t.enc.data = d ∧ (d = 0 → t.enc.parity = 0) ∧
    ∀ i : Fin 8, t.enc.parity.getLsbD (7 - i) = redxor (s.tables.P[i] &&& d) ∧
      t.enc.parity.getLsbD (7 - i) =
        (List.range 8).foldl (fun par j => par ^^ (d.getLsbD (7 - j) && s.tables.P[i].getLsbD (7 - j))) false ∧
      (d = 0xFF → t.enc.parity.getLsbD (7 - i) = redxor s.tables.P[i]) ∧
      (s.tables.P[i] = 0 → t.enc.parity.getLsbD (7 - i) = false) ∧
      ∀ b : Fin 8, d = oneBit 8 b → t.enc.parity.getLsbD (7 - i) = s.tables.P[i].getLsbD b

/-- ENCODE (R91): always completes and changes the encode ports only. `enc_codeword` has parity index `i` at bit `15-i`,
the data byte unchanged in its low byte and `enc_parity` as its high byte; the encoding is injective, with 256 outputs. -/
def Obligations.EncodeGivesTheCodeword : Prop :=
  (∀ (d : Byte) (s : State), ∃ t, exec (.encode d) s = .next t ∧ t = { s with enc := t.enc } ∧
    t.enc.data = d ∧ t.enc.codeword = t.enc.parity ++ d ∧ (d = 0 → t.enc.codeword = 0) ∧
    t.enc.codeword = encodeByte s.tables.P d ∧
    (∀ i : Fin 8, t.enc.codeword.getLsbD (15 - i) = redxor (s.tables.P[i] &&& d)) ∧
    ∀ b : Fin 8, t.enc.codeword.getLsbD b = d.getLsbD b) ∧
  ∀ P : Vector Byte 8, Function.Injective (encodeByte P) ∧ Set.ncard (Set.range (encodeByte P)) = 256

/-- SYND (R110): always completes and changes the decode ports only. Bit `7-i` of `dec_syndrome` is
`redxor_16(H[i] & c)`; and the rule's corner cases. -/
def Obligations.SyndGivesTheSyndrome : Prop :=
  ∀ (c : Word) (s : State), ∃ t, exec (.synd c) s = .next t ∧ t = { s with dec := t.dec } ∧
    t.dec.codeword = c ∧ (c = 0 → t.dec.syndrome = 0) ∧
    ∀ i : Fin 8, t.dec.syndrome.getLsbD (7 - i) = redxor (s.tables.H[i] &&& c) ∧
      (c = 0xFFFF → t.dec.syndrome.getLsbD (7 - i) = redxor s.tables.H[i]) ∧
      (s.tables.H[i] = 0 → t.dec.syndrome.getLsbD (7 - i) = false) ∧
      ∀ b : Fin 16, c = oneBit 16 b → t.dec.syndrome.getLsbD (7 - i) = s.tables.H[i].getLsbD b

/-- EPLOOK (R130, R131): always completes, with the one entry at the address. That it shows on the pins of a lone table
and changes those pins only, where R130 names the port `dec_pattern`, is the model's choice (log entry 3, DEDUCED). -/
def Obligations.EplookGivesTheEntry : Prop :=
  ∀ (a : Byte) (s : State), ∃ t, exec (.eplook a) s = .next t ∧ t = { s with rom := t.rom } ∧
    t.rom.address = a ∧ (∀ k : Fin 256, a.toNat = k.val → t.rom.pattern = s.tables.LUT[k]) ∧
    (a = 0 → WF_LUT0 s.tables → t.rom.pattern = 0)

/-- CORR (R150): always completes. Bit `b` of the result is `c[b] ^ e[b]`; and the rule's corner cases, the last that
applying the same pattern again restores `c`. That it shows on the pins of a lone corrector and changes those pins only,
where R150 names the ports `dec_codeword`, `dec_pattern`, `dec_corrected`, is the model's choice (log entry 3, DEDUCED). -/
def Obligations.CorrGivesTheCorrectedCodeword : Prop :=
  ∀ (c e : Word) (s : State), ∃ t, exec (.corr c e) s = .next t ∧ t = { s with corrector := t.corrector } ∧
    t.corrector.codeword = c ∧ t.corrector.pattern = e ∧
    (∀ b : Fin 16, t.corrector.corrected.getLsbD b = (c.getLsbD b ^^ e.getLsbD b)) ∧
    (e = 0 → t.corrector.corrected = c) ∧ (e = 0xFFFF → t.corrector.corrected = ~~~c) ∧
    (e = c → t.corrector.corrected = 0) ∧
    ∃ u, exec (.corr t.corrector.corrected e) t = .next u ∧ u.corrector.corrected = c

/-- EXTRACT (R151): always completes with bits 7..0; bits 15..8 have no effect. That it shows on the pins of a lone output
wiring and changes those pins only, where R151 names the ports `dec_corrected` and `dec_data`, is the model's choice (log
entry 3, DEDUCED). -/
def Obligations.ExtractGivesTheLowByte : Prop :=
  ∀ (cc : Word) (s : State), ∃ t, exec (.extract cc) s = .next t ∧ t = { s with extractor := t.extractor } ∧
    t.extractor.corrected = cc ∧ (∀ b : Fin 8, t.extractor.data.getLsbD b = cc.getLsbD b) ∧
    ∀ cc' : Word, (∀ b : Fin 8, cc'.getLsbD b = cc.getLsbD b) →
      ∃ u, exec (.extract cc') s = .next u ∧ u.extractor.data = t.extractor.data

/-- DECODE (R152): always completes and changes the decode ports only: the four steps in series, in one pass (R153); and
the rule's corner case of the zero word. -/
def Obligations.DecodeGivesTheDataByte : Prop :=
  ∀ (c : Word) (s : State), ∃ t, exec (.decode c) s = .next t ∧ t = { s with dec := t.dec } ∧
    t.dec.codeword = c ∧
    (∀ i : Fin 8, t.dec.syndrome.getLsbD (7 - i) = redxor (s.tables.H[i] &&& c)) ∧
    (∀ k : Fin 256, t.dec.syndrome.toNat = k.val → t.dec.pattern = s.tables.LUT[k]) ∧
    (∀ b : Fin 16, t.dec.corrected.getLsbD b = (c.getLsbD b ^^ t.dec.pattern.getLsbD b)) ∧
    (∀ b : Fin 8, t.dec.data.getLsbD b = t.dec.corrected.getLsbD b) ∧
    t.dec.data = decodeCodeword s.tables.H s.tables.LUT c ∧
    (c = 0 → t.dec.syndrome = 0 ∧ t.dec.pattern = eplook s.tables.LUT 0 ∧
      t.dec.data = dataByte (eplook s.tables.LUT 0) ∧ (WF_LUT0 s.tables → t.dec.data = 0))

/-! ### What each operation leaves unchanged -/

/-- PARGEN and ENCODE change the encode ports only: no constant, no table entry, no decode port, no lone unit, no
waiting word (R51, R90, R91). -/
def Obligations.EncodeOperationsFrame : Prop :=
  ∀ (d : Byte) (s t : State), (exec (.pargen d) s = .next t ∨ exec (.encode d) s = .next t) →
    t.tables = s.tables ∧ (∀ a, eplook t.tables.LUT a = eplook s.tables.LUT a) ∧
    t.dec = s.dec ∧ t.rom = s.rom ∧ t.corrector = s.corrector ∧ t.extractor = s.extractor ∧
    t.applied = s.applied

/-- SYND and DECODE change the decode ports only (R110, R152). -/
def Obligations.DecodeOperationsFrame : Prop :=
  ∀ (c : Word) (s t : State), (exec (.synd c) s = .next t ∨ exec (.decode c) s = .next t) →
    t.tables = s.tables ∧ (∀ a, eplook t.tables.LUT a = eplook s.tables.LUT a) ∧
    t.enc = s.enc ∧ t.rom = s.rom ∧ t.corrector = s.corrector ∧ t.extractor = s.extractor ∧
    t.applied = s.applied

/-- EPLOOK, CORR and EXTRACT each change the pins of their own lone unit only. That the block's decode ports, which R130,
R150 and R151 name, stay as they were is the model's choice (log entry 3, DEDUCED from R75's last paragraph); that no
constant, table entry or encode port changes is R51, R52 and R63. -/
def Obligations.LoneUnitOperationsFrame : Prop :=
  (∀ (a : Byte) (s t : State), exec (.eplook a) s = .next t →
    t.tables = s.tables ∧ (∀ k, eplook t.tables.LUT k = eplook s.tables.LUT k) ∧
    t.enc = s.enc ∧ t.dec = s.dec ∧ t.corrector = s.corrector ∧ t.extractor = s.extractor ∧
    t.applied = s.applied) ∧
  (∀ (c e : Word) (s t : State), exec (.corr c e) s = .next t →
    t.tables = s.tables ∧ (∀ k, eplook t.tables.LUT k = eplook s.tables.LUT k) ∧
    t.enc = s.enc ∧ t.dec = s.dec ∧ t.rom = s.rom ∧ t.extractor = s.extractor ∧
    t.applied = s.applied) ∧
  ∀ (cc : Word) (s t : State), exec (.extract cc) s = .next t →
    t.tables = s.tables ∧ (∀ k, eplook t.tables.LUT k = eplook s.tables.LUT k) ∧
    t.enc = s.enc ∧ t.dec = s.dec ∧ t.rom = s.rom ∧ t.corrector = s.corrector ∧
    t.applied = s.applied

/-! ### The whole machine -/

/-- R200: every operation, in every state, gives a value: no fault, no refusal, no stuck outcome. -/
def Obligations.NothingTraps : Prop :=
  ∀ (i : Instr) (s : State), ∃ t, exec i s = .next t

/-- No operation and no step writes a constant or a table entry (R26, R52). -/
def Obligations.ConstantsAreNeverWritten : Prop :=
  (∀ (i : Instr) (s t : State), exec i s = .next t →
    t.tables = s.tables ∧ ∀ a, eplook t.tables.LUT a = eplook s.tables.LUT a) ∧
  ∀ s t : State, step s = .next t →
    t.tables = s.tables ∧ ∀ a, eplook t.tables.LUT a = eplook s.tables.LUT a

/-- R58: at every time of every run of every instance, EPLOOK gives the construction-time entry. -/
def Obligations.LookupIsTheSameAtEveryTime : Prop :=
  ∀ (k : Nat) (s t : State) (a : Byte), Host.Core.run core k s = .next t →
    ∃ u, exec (.eplook a) t = .next u ∧ u.rom.pattern = eplook s.tables.LUT a

/-- Every step from a state whose wires are settled (R36, R75) and whose waiting words fit their ports (R12) leads to such
a state. -/
def Obligations.StepKeepsTheWiresSettled : Prop :=
  ∀ s t : State, s.Inv → step s = .next t → t.Inv

/-- At power-up every output is the function of its inputs (R36, R221), which the model puts at 0 (log entry 4), and no
word waits to be applied (the model's choice, log entry 2). -/
def Obligations.ResetIsSettled : Prop := State.reset.Inv ∧ State.reset.applied = []

/-- From a settled state with fitting words no run of any length stops; it takes one waiting word a step and keeps the
constants (R200, R221, R26; log entry 2). -/
def Obligations.RunsNeverStop : Prop :=
  ∀ (k : Nat) (s : State), s.Inv →
    ∃ t : State, Host.Core.run core k s = .next t ∧ t.Inv ∧ t.tables = s.tables ∧ t.applied = s.applied.drop k

/-- What reset leaves: the parameter's constants (R36), nothing applied (log entry 2), and on every output the function of
the inputs, which the model puts at 0 (log entry 4, DESIGN CHOICE). -/
def Obligations.ResetValues : Prop :=
  State.reset.tables = Config.tables ∧ State.reset.applied = [] ∧
  State.reset.enc = ⟨0, 0, 0⟩ ∧
  State.reset.dec = ⟨0, 0, eplook Config.tables.LUT 0, eplook Config.tables.LUT 0,
    dataByte (eplook Config.tables.LUT 0)⟩ ∧
  State.reset.rom = ⟨0, eplook Config.tables.LUT 0⟩ ∧
  State.reset.corrector = ⟨0, 0, 0⟩ ∧ State.reset.extractor = ⟨0, 0⟩

/-- Evaluations of different pieces do not interact: their order does not matter. For the encode path against the rest
that is R63; that EPLOOK, CORR and EXTRACT are pieces apart from the decode path, on which R63 names them, and from one
another is the model's choice (log entry 3, DEDUCED). -/
def Obligations.PiecesDoNotInteract : Prop :=
  ∀ (i j : Instr) (s : State), Part.of i ≠ Part.of j →
    ∃ t, runScript [i, j] s = .next t ∧ runScript [j, i] s = .next t

/-- Evaluating the same operation again gives the same values, and an earlier operation on the same piece leaves no
trace (R20, R55, R95). -/
def Obligations.EarlierInputsLeaveNoTrace : Prop :=
  (∀ (i : Instr) (s t : State), exec i s = .next t → exec i t = .next t) ∧
  ∀ (i j : Instr) (s : State), Part.of i = Part.of j → runScript [i, j] s = exec j s

/-- R95: PARGEN and ENCODE read `P` and their input, and nothing else: neither `H` nor `LUT`, nor an earlier input. -/
def Obligations.EncodeReadsOnlyP : Prop :=
  ∀ (d : Byte) (s s' : State), s.tables.P = s'.tables.P →
    (∃ t t', exec (.pargen d) s = .next t ∧ exec (.pargen d) s' = .next t' ∧ t.enc = t'.enc) ∧
    ∃ t t', exec (.encode d) s = .next t ∧ exec (.encode d) s' = .next t' ∧ t.enc = t'.enc

/-- R114: SYND reads `H` and its input, and nothing else; the codeword goes on to CORR unchanged. -/
def Obligations.SyndReadsOnlyH : Prop :=
  ∀ (c : Word) (s s' : State), s.tables.H = s'.tables.H →
    ∃ t t', exec (.synd c) s = .next t ∧ exec (.synd c) s' = .next t' ∧
      t.dec.syndrome = t'.dec.syndrome ∧ t.dec.codeword = c ∧ t.dec.corrected = corr c t.dec.pattern

/-- DECODE's outputs depend on `H`, its input and the one entry at the syndrome: not on `P`, on another entry or on an
earlier input (R152, R153); EPLOOK's on the one entry; CORR's and EXTRACT's on no constant (R130, R150, R151). The last
three are read on the pins of lone units (the model's choice, log entry 3). -/
def Obligations.DecodeReadsHAndOneEntry : Prop :=
  (∀ (c : Word) (s s' : State), s.tables.H = s'.tables.H →
    eplook s.tables.LUT (synd s.tables.H c) = eplook s'.tables.LUT (synd s.tables.H c) →
    ∃ t t', exec (.decode c) s = .next t ∧ exec (.decode c) s' = .next t' ∧ t.dec = t'.dec) ∧
  (∀ (a : Byte) (s s' : State), eplook s.tables.LUT a = eplook s'.tables.LUT a →
    ∃ t t', exec (.eplook a) s = .next t ∧ exec (.eplook a) s' = .next t' ∧ t.rom = t'.rom) ∧
  ∀ (c e cc : Word) (s s' : State),
    (∃ t t', exec (.corr c e) s = .next t ∧ exec (.corr c e) s' = .next t' ∧ t.corrector = t'.corrector) ∧
    ∃ t t', exec (.extract cc) s = .next t ∧ exec (.extract cc) s' = .next t' ∧ t.extractor = t'.extractor

/-- R80: the composites are exactly their expansions, unit by unit; EPLOOK, CORR and EXTRACT are read on the pins of lone
units (the model's choice, log entry 3). -/
def Obligations.CompositesAreTheirExpansions : Prop :=
  (∀ (d : Byte) (s : State), ∃ t u, exec (.pargen d) s = .next t ∧ exec (.encode d) s = .next u ∧
    u.enc.codeword = joinCodeword t.enc.parity d) ∧
  ∀ (c : Word) (s : State), ∃ t₁ t₂ t₃ t₄ u,
    exec (.synd c) s = .next t₁ ∧ exec (.eplook t₁.dec.syndrome) t₁ = .next t₂ ∧
    exec (.corr c t₂.rom.pattern) t₂ = .next t₃ ∧ exec (.extract t₃.corrector.corrected) t₃ = .next t₄ ∧
    exec (.decode c) s = .next u ∧ u.dec.syndrome = t₁.dec.syndrome ∧ u.dec.pattern = t₂.rom.pattern ∧
    u.dec.corrected = t₃.corrector.corrected ∧ u.dec.data = t₄.extractor.data

/-! ### The gates and the matrices -/

/-- The reduction is the parity of the weight, not the weight (R10, R110), and widening with zeros does not change it
(conflict C6). -/
def Obligations.RedxorIsTheParityOfTheWeight : Prop :=
  ∀ (w : Nat) (v : BitVec w), redxor v = decide (popcount v % 2 = 1) ∧
    ∀ n, w ≤ n → redxor (v.setWidth n) = redxor v

/-- R92: the source's loop and the mask-and-reduce form give the same bit, in whatever order the products are combined. -/
def Obligations.ParityFormsAgree : Prop :=
  ∀ (P : Vector Byte 8) (d : Byte) (i : Fin 8) (order : List Nat), order.Perm (List.range 8) →
    order.foldl (fun par j => par ^^ (d.getLsbD (7 - j) && P[i].getLsbD (7 - j))) false =
      redxor (P[i] &&& d)

/-- R94: PARGEN and ENCODE are linear for every `P`, and PARGEN of a byte is the exclusive-or of PARGEN of its set bits. -/
def Obligations.EncodeIsLinear : Prop :=
  ∀ (P : Vector Byte 8) (a b : Byte),
    pargen P (a ^^^ b) = pargen P a ^^^ pargen P b ∧
    encodeByte P (a ^^^ b) = encodeByte P a ^^^ encodeByte P b ∧
    pargen P a = (List.range 8).foldl
      (fun acc k => acc ^^^ if a.getLsbD k then pargen P (oneBit 8 k) else 0) 0

/-- R171: SYND is linear for every `H`; EPLOOK and DECODE are not in general. -/
def Obligations.SyndIsLinearAndLookupIsNot : Prop :=
  (∀ (H : Vector Word 8) (x y : Word), synd H (x ^^^ y) = synd H x ^^^ synd H y ∧ synd H 0 = 0) ∧
  (∃ (LUT : Vector Word 256) (a b : Byte), eplook LUT (a ^^^ b) ≠ eplook LUT a ^^^ eplook LUT b) ∧
  ∃ (H : Vector Word 8) (LUT : Vector Word 256) (x y : Word),
    decodeCodeword H LUT (x ^^^ y) ≠ decodeCodeword H LUT x ^^^ decodeCodeword H LUT y

/-- R111: under `WF_H` the syndrome is the received parity byte exclusive-ored with the recomputed one. -/
def Obligations.SyndromeIsParityDifference : Prop :=
  ∀ (T : Tables), WF_H T → ∀ c, synd T.H c = parityByte c ^^^ pargen T.P (dataByte c)

/-- R112: the syndromes of the sixteen single-bit values under `WF_H`, and that they are those of a single-bit error in
any encoder output. -/
def Obligations.SingleBitSyndromes : Prop :=
  ∀ (T : Tables), WF_H T →
    (∀ p : Fin 16, 8 ≤ p.val → synd T.H (oneBit 16 p) = oneBit 8 (p - 8)) ∧
    (∀ p : Fin 8, synd T.H (oneBit 16 p) = pargen T.P (oneBit 8 p) ∧
      ∀ i : Fin 8, (synd T.H (oneBit 16 p)).getLsbD (7 - i) = T.P[i].getLsbD p) ∧
    ∀ (d : Byte) (p : Fin 16), synd T.H (encodeByte T.P d ^^^ oneBit 16 p) = synd T.H (oneBit 16 p)

/-! ### The guarantees and their limits -/

/-- R172: the zero-syndrome invariant holds under `WF_H`; given the identity block it holds if and only if the low byte of
row `i` of `H` is row `i` of `P`; and for the column reading (conflict C1) if and only if `P` is symmetric. -/
def Obligations.ZeroSyndromeForcesTheRowForm : Prop :=
  ∀ T : Tables,
    (WF_H T → ∀ d, synd T.H (encodeByte T.P d) = 0) ∧
    (HasIdentityBlock T.H →
      ((∀ d, synd T.H (encodeByte T.P d) = 0) ↔ ∀ i : Fin 8, dataByte T.H[i] = T.P[i])) ∧
    ((∀ i : Fin 8, T.H[i] = joinCodeword (identityRow i) (columnByte T.P i)) →
      ((∀ d, synd T.H (encodeByte T.P d) = 0) ↔ SymmetricP T.P))

/-- R173: under `WF_H` the zero-syndrome words are exactly the valid ones, which are the encoder's outputs, 256 of them;
and an error that is itself a valid word is undetectable. -/
def Obligations.ZeroSyndromeIffValid : Prop :=
  ∀ T : Tables, WF_H T →
    (∀ c, synd T.H c = 0 ↔ Valid T.P c) ∧
    (∀ c, Valid T.P c ↔ c = encodeByte T.P (dataByte c)) ∧
    Set.ncard {c : Word | Valid T.P c} = 256 ∧
    ∀ c e, Valid T.P c → Valid T.P e → Valid T.P (c ^^^ e) ∧ synd T.H e = 0

/-- R174: encoding a byte and decoding the codeword gives the byte back under `WF_H` and `WF_LUT0`, with the by-products
the rule gives; without `WF_LUT0` it gives `d ^ LUT[0][7:0]`. -/
def Obligations.RoundTripWithoutNoise : Prop :=
  ∀ (d : Byte) (s : State), WF_H s.tables →
    ∃ t u, exec (.encode d) s = .next t ∧ exec (.decode t.enc.codeword) t = .next u ∧
      u.dec.data = d ^^^ dataByte (eplook s.tables.LUT 0) ∧
      (WF_LUT0 s.tables →
        u.dec.data = d ∧ u.dec.syndrome = 0 ∧ u.dec.pattern = 0 ∧ u.dec.corrected = t.enc.codeword)

/-- R175: what decoding a corrupted codeword gives depends on the error alone, and the byte is right exactly when the
residual's low byte is zero. -/
def Obligations.ErrorDecomposition : Prop :=
  ∀ (d : Byte) (x : Word) (s : State), WF_H s.tables →
    ∃ t u, exec (.encode d) s = .next t ∧ exec (.decode (t.enc.codeword ^^^ x)) t = .next u ∧
      u.dec.syndrome = synd s.tables.H x ∧
      u.dec.data = d ^^^ dataByte (x ^^^ eplook s.tables.LUT (synd s.tables.H x)) ∧
      u.dec.corrected = t.enc.codeword ^^^ x ^^^ eplook s.tables.LUT (synd s.tables.H x) ∧
      (u.dec.data = d ↔ dataByte (residualError s.tables x) = 0)

/-- R176: a single flipped bit is corrected, for every byte and at position `p` where the table has that bit; at all
sixteen positions under `SEC_P` and `WF_LUT_SB`; and for a parity position a zero low byte of the entry is enough for the
data byte. -/
def Obligations.SingleFlipIsCorrected : Prop :=
  ∀ (d : Byte) (p : Fin 16) (s : State), WF_H s.tables →
    ∃ t u, exec (.encode d) s = .next t ∧ exec (.decode (t.enc.codeword ^^^ oneBit 16 p)) t = .next u ∧
      (eplook s.tables.LUT (synd s.tables.H (oneBit 16 p)) = oneBit 16 p →
        u.dec.data = d ∧ u.dec.corrected = t.enc.codeword) ∧
      (SEC_P s.tables → WF_LUT_SB s.tables → u.dec.data = d ∧ u.dec.corrected = t.enc.codeword) ∧
      (8 ≤ p.val → dataByte (eplook s.tables.LUT (oneBit 8 (p - 8))) = 0 → u.dec.data = d)

/-- R177: a word of zero syndrome passes through unchanged under `WF_LUT0` alone. -/
def Obligations.ZeroSyndromePassesThrough : Prop :=
  ∀ (c : Word) (s : State), WF_LUT0 s.tables → synd s.tables.H c = 0 →
    ∃ t, exec (.decode c) s = .next t ∧ t.dec.data = dataByte c ∧ t.dec.corrected = c

/-- The three cases of R178 for an error `x` (R205): removed, another pattern applied, declined. The byte is the one the
tables give, right or wrong. -/
def Obligations.SilentMiscorrection : Prop :=
  ∀ (d : Byte) (x : Word) (s : State), WF_H s.tables →
    ∃ t u, exec (.encode d) s = .next t ∧ exec (.decode (t.enc.codeword ^^^ x)) t = .next u ∧
      let entry := eplook s.tables.LUT (synd s.tables.H x)
      (entry = x → u.dec.data = d ∧ u.dec.corrected = t.enc.codeword) ∧
      (entry ≠ x → entry ≠ 0 → u.dec.data = d ^^^ dataByte (x ^^^ entry) ∧
        (u.dec.data = d ↔ dataByte x = dataByte entry)) ∧
      (entry = 0 → x ≠ 0 → u.dec.data = d ^^^ dataByte x ∧ (u.dec.data = d ↔ dataByte x = 0))

/-- R179: under `WF_H`, `SEC_P` is the condition on the columns of `P` that the rule gives, and is a minimum distance of at
least 3; and of two positions with one syndrome at most one is corrected. -/
def Obligations.SingleErrorCorrectionIsDistanceThree : Prop :=
  ∀ T : Tables, WF_H T →
    (SEC_P T ↔ (∀ b b' : Fin 8, b ≠ b' → pargen T.P (oneBit 8 b) ≠ pargen T.P (oneBit 8 b')) ∧
      ∀ b : Fin 8, 2 ≤ popcount (pargen T.P (oneBit 8 b))) ∧
    (SEC_P T ↔ ∀ c c', Valid T.P c → Valid T.P c' → c ≠ c' → 3 ≤ popcount (c ^^^ c')) ∧
    ∀ p q : Fin 16, p ≠ q → synd T.H (oneBit 16 p) = synd T.H (oneBit 16 q) →
      ¬ ∀ d, decodeCodeword T.H T.LUT (encodeByte T.P d ^^^ oneBit 16 p) = d ∧
        decodeCodeword T.H T.LUT (encodeByte T.P d ^^^ oneBit 16 q) = d

/-- R181: the source's worked example, byte `0xAA` with bit 13 flipped and unflipped, on the machine's ports; so the model's
record of it, `WorkedExampleHolds`, holds of every instance with `WF_H`. -/
def Obligations.WorkedExample : Prop :=
  ∀ s : State, WF_H s.tables → WorkedExampleHolds s.tables ∧
    ∃ t u v, exec (.encode 0xAA) s = .next t ∧
      exec (.decode (t.enc.codeword ^^^ 0x2000)) t = .next u ∧ exec (.decode t.enc.codeword) t = .next v ∧
      t.enc.codeword = joinCodeword (pargen s.tables.P 0xAA) 0xAA ∧
      u.dec.syndrome = 0x20 ∧
      (eplook s.tables.LUT 0x20 = 0x2000 → u.dec.data = 0xAA ∧ u.dec.corrected = t.enc.codeword) ∧
      (WF_LUT0 s.tables → v.dec.data = 0xAA ∧ v.dec.syndrome = 0)

/-- R182: under `WF_H` and `WF_LUT_COSET` the corrected codeword is valid, or is the received word where the entry is zero;
without `WF_LUT_COSET` it need not be valid. -/
def Obligations.CosetTableCorrectsToValidWords : Prop :=
  (∀ (c : Word) (s : State), WF_H s.tables → WF_LUT_COSET s.tables →
    ∃ t, exec (.decode c) s = .next t ∧
      (eplook s.tables.LUT (synd s.tables.H c) ≠ 0 ∨ synd s.tables.H c = 0 → Valid s.tables.P t.dec.corrected) ∧
      (eplook s.tables.LUT (synd s.tables.H c) = 0 → t.dec.corrected = c)) ∧
  ∃ T : Tables, WF_H T ∧ ∃ c, eplook T.LUT (synd T.H c) ≠ 0 ∧
    ¬ Valid T.P (corr c (eplook T.LUT (synd T.H c)))

/-- R155: a zero pattern passes the received word and its data byte through, in CORR and in DECODE; so for a zero syndrome
under `WF_LUT0`, and for every syndrome whose entry is zero (R133). -/
def Obligations.ZeroPatternPassesThrough : Prop :=
  (∀ (c : Word) (s : State), ∃ t, exec (.corr c 0) s = .next t ∧ t.corrector.corrected = c) ∧
  ∀ (c : Word) (s : State),
    (WF_LUT0 s.tables ∧ synd s.tables.H c = 0) ∨ eplook s.tables.LUT (synd s.tables.H c) = 0 →
    ∃ t, exec (.decode c) s = .next t ∧ t.dec.pattern = 0 ∧ t.dec.corrected = c ∧ t.dec.data = dataByte c

/-- R156: the data byte can be computed from the low bytes alone. -/
def Obligations.DataByteFromTheLowBytes : Prop :=
  ∀ (c : Word) (s : State), ∃ t, exec (.decode c) s = .next t ∧
    t.dec.data = dataByte c ^^^ dataByte (eplook s.tables.LUT (synd s.tables.H c))

/-- R56: with `WF_H` and `SEC_P`, `WF_LUT_SB` fixes the sixteen entries at the single-bit syndromes, which are sixteen
different nonzero addresses. -/
def Obligations.FixedTableEntries : Prop :=
  ∀ T : Tables, WF_H T → SEC_P T → WF_LUT_SB T →
    (∀ p : Fin 16, 8 ≤ p.val → eplook T.LUT (oneBit 8 (p - 8)) = oneBit 16 p) ∧
    (∀ p : Fin 8, eplook T.LUT (pargen T.P (oneBit 8 p)) = oneBit 16 p) ∧
    ∀ b : Fin 8, pargen T.P (oneBit 8 b) ≠ 0 ∧ ∀ b' : Fin 8, pargen T.P (oneBit 8 b) ≠ oneBit 8 b'

/-- The premises do not carry the guarantee past weight 1 (R178, R173, 95_test_vectors.md section 3.5). An existence claim:
SOME tables meet every premise of the spec, and with them DECODE returns a wrong byte for some two-bit error, and for some
nonzero error whose syndrome is zero. -/
def Obligations.GuaranteeEndsAtOneBit : Prop :=
  ∃ T : Tables, WF_H T ∧ WF_LUT0 T ∧ WF_LUT_SB T ∧ SEC_P T ∧ WF_LUT_COSET T ∧
    (∃ d x, popcount x = 2 ∧ decodeCodeword T.H T.LUT (encodeByte T.P d ^^^ x) ≠ d) ∧
    ∃ d x, x ≠ 0 ∧ synd T.H x = 0 ∧ decodeCodeword T.H T.LUT (encodeByte T.P d ^^^ x) ≠ d

/-- What a user may compute outside the block from its ordinary outputs (R31, R207, R133): under `WF_H` "error seen" says
that the received word is not valid; "declined" says that the pattern is zero and the syndrome is not, and then the
invalid word passed through. -/
def Obligations.OuterSignalsFromTheOutputs : Prop :=
  ∀ (c : Word) (s : State), WF_H s.tables → ∃ t, exec (.decode c) s = .next t ∧
    (outerErrorSeen t.dec.syndrome = true ↔ ¬ Valid s.tables.P c) ∧
    (outerDeclined t.dec.syndrome t.dec.pattern = true ↔ t.dec.pattern = 0 ∧ t.dec.syndrome ≠ 0) ∧
    (outerDeclined t.dec.syndrome t.dec.pattern = true →
      t.dec.corrected = c ∧ ¬ Valid s.tables.P t.dec.corrected)

/-- The construction-time checks of R222: check 3 is implied by checks 1 and 2, and the exhaustive form of check 5 by
checks 1 and 4 and `WF_LUT_SB`. -/
def Obligations.ConstructionChecksAreImplied : Prop :=
  ∀ T : Tables, WF_H T → (WF_LUT0 T → RoundTripCheck T) ∧ (SEC_P T → WF_LUT_SB T → SingleFlipCheck T)

/-- A step goes on whenever the next word, if there is one, fits its port. That a step takes the model's own list, goes on
where it is empty, and stops only on a word that fits no port is the model's choice (log entries 2 and 7); that the
operation it evaluates gives a value is R200. -/
def Obligations.StepGoesOnWhereTheWordFits : Prop :=
  ∀ s : State, (∀ a ∈ s.applied.head?, a.WellFormed) → ∃ t, step s = .next t

/-- R183: every law of the table holds for arbitrary tables under exactly the premises of its row. -/
def Obligations.LawsHoldUnderTheirPremises : Prop :=
  ∀ (T : Tables) (law : Law), law.Premises T → law.Holds T

/-- R183: a law whose row has a premise is no law of all tables: without its premises some tables refute it. -/
def Obligations.LawsWithPremisesNeedThem : Prop :=
  ∀ law : Law, (∀ T, law.Premises T) ∨ ∃ T, ¬ law.Premises T ∧ ¬ law.Holds T
end

