-- ==== Sys2Proof/Laws/Gates.lean ====
section
/-! SUPPORT. What the gates compute: the reduction over exclusive-or, AND and concatenation, the bits of a packed byte,
and the two halves of a codeword. -/

namespace Sys2Proof.Machine

/-! The reduction `redxor`. -/

@[simp] theorem redxorLow_zero {w : Nat} (n : Nat) : redxorLow (0#w) n = false := by
  induction n with
  | zero => rfl
  | succ n ih => rw [redxorLow, ih]; simp

@[simp] theorem redxor_zero {w : Nat} : redxor (0#w) = false := redxorLow_zero w

theorem redxorLow_xor {w : Nat} (x y : BitVec w) (n : Nat) :
    redxorLow (x ^^^ y) n = (redxorLow x n ^^ redxorLow y n) := by
  induction n with
  | zero => rfl
  | succ n ih =>
    simp only [redxorLow, ih, BitVec.getLsbD_xor]
    cases x.getLsbD n <;> cases y.getLsbD n <;> simp

/-- The reduction of an exclusive-or is the exclusive-or of the reductions (proof of rule R170). -/
theorem redxor_xor {w : Nat} (x y : BitVec w) : redxor (x ^^^ y) = (redxor x ^^ redxor y) :=
  redxorLow_xor x y w

/-- The reduction sees only the bits it reads. -/
theorem redxorLow_congr {v w : Nat} {x : BitVec v} {y : BitVec w} {n : Nat}
    (h : ∀ b < n, x.getLsbD b = y.getLsbD b) : redxorLow x n = redxorLow y n := by
  induction n with
  | zero => rfl
  | succ n ih =>
    simp only [redxorLow, h n (Nat.lt_succ_self n), ih fun b hb => h b (Nat.lt_succ_of_lt hb)]

/-- Bits above the value's own width add nothing (conflict C6). -/
theorem redxorLow_of_le {w : Nat} (x : BitVec w) {n : Nat} (h : w ≤ n) : redxorLow x n = redxor x := by
  induction n, h using Nat.le_induction with
  | base => rfl
  | succ n hn ih => simp [redxorLow, ih, BitVec.getLsbD_of_ge x n hn]

/-- Splitting the reduction of a concatenation at the seam (proof of rule R111). -/
theorem redxor_append {m n : Nat} (x : BitVec m) (y : BitVec n) :
    redxor (x ++ y) = (redxor x ^^ redxor y) := by
  have low : redxorLow (x ++ y) n = redxor y :=
    redxorLow_congr fun b hb => by simp [BitVec.getLsbD_append, hb]
  have high : ∀ k, redxorLow (x ++ y) (k + n) = (redxorLow x k ^^ redxor y) := by
    intro k
    induction k with
    | zero => simp [redxorLow, low]
    | succ k ih =>
      rw [Nat.succ_add]
      simp [redxorLow, ih, BitVec.getLsbD_append]
  exact high m

/-- The reduction of a value masked to one bit is that bit. -/
theorem redxor_and_oneBit {w : Nat} (x : BitVec w) {p : Nat} (hp : p < w) :
    redxor (x &&& oneBit w p) = x.getLsbD p := by
  have bit : ∀ b, (x &&& oneBit w p).getLsbD b = (decide (b = p) && x.getLsbD p) := by
    intro b
    simp only [oneBit, BitVec.getLsbD_and, BitVec.getLsbD_shiftLeft, BitVec.getLsbD_one]
    by_cases h : b = p
    · subst h; simp [hp]; omega
    · by_cases h' : b < p
      · simp [h, h']
      · have : b - p ≠ 0 := by omega
        simp [h, this]
  have sum : ∀ n, redxorLow (x &&& oneBit w p) n = (decide (p < n) && x.getLsbD p) := by
    intro n
    induction n with
    | zero => rfl
    | succ n ih =>
      rw [redxorLow, bit, ih]
      rcases Nat.lt_trichotomy n p with h | h | h
      · simp [show n ≠ p by omega, show ¬ p < n by omega, show ¬ p < n + 1 by omega]
      · subst h; simp
      · simp [show n ≠ p by omega, h, show p < n + 1 by omega]
  simpa [redxor, hp] using sum w

/-! The byte of eight rows. -/

/-- Row `i` stands at bit `7-i` (rules R9, R73). -/
@[simp] theorem packRows_getLsbD (row : Fin 8 → Bool) (i : Fin 8) :
    (packRows row).getLsbD (7 - i.val) = row i := by
  have bits : ∀ a b c d e f g h : Bool, ∀ i : Fin 8,
      (BitVec.ofBoolListBE [a, b, c, d, e, f, g, h]).getLsbD (7 - i.val) =
        [a, b, c, d, e, f, g, h][i] := by decide
  rw [packRows, bits]
  fin_cases i <;> rfl

/-- Two bytes that agree on every row are equal. -/
theorem byte_ext_rows {a b : Byte} (h : ∀ i : Fin 8, a.getLsbD (7 - i.val) = b.getLsbD (7 - i.val)) :
    a = b := by
  apply BitVec.eq_of_getLsbD_eq
  intro k hk
  have := h ⟨7 - k, by omega⟩
  rwa [show 7 - (7 - k) = k by omega] at this

theorem packRows_xor (f g : Fin 8 → Bool) :
    (packRows fun i => f i ^^ g i) = packRows f ^^^ packRows g :=
  byte_ext_rows fun i => by simp

@[simp] theorem packRows_false : (packRows fun _ => false) = 0#8 := by decide

theorem packRows_inj {f g : Fin 8 → Bool} (h : packRows f = packRows g) : f = g := by
  funext i
  rw [← packRows_getLsbD f i, h, packRows_getLsbD]

/-! The halves of a codeword (rule R28). -/

/-- Bits 7..0 of a joined codeword are the data byte's, bits 15..8 the parity byte's (rule R72). -/
theorem joinCodeword_getLsbD (p d : Byte) (k : Nat) :
    (joinCodeword p d).getLsbD k = if k < 8 then d.getLsbD k else p.getLsbD (k - 8) :=
  BitVec.getLsbD_append

theorem dataByte_getLsbD (c : Word) {b : Nat} (hb : b < 8) : (dataByte c).getLsbD b = c.getLsbD b := by
  simp [dataByte, hb]

theorem parityByte_getLsbD (c : Word) {b : Nat} (hb : b < 8) :
    (parityByte c).getLsbD b = c.getLsbD (8 + b) := by
  simp [parityByte, hb]

@[simp] theorem parityByte_join (p d : Byte) : parityByte (joinCodeword p d) = p := by
  apply BitVec.eq_of_getLsbD_eq
  intro k hk
  simp [parityByte_getLsbD _ hk, joinCodeword_getLsbD]

@[simp] theorem dataByte_join (p d : Byte) : dataByte (joinCodeword p d) = d := by
  apply BitVec.eq_of_getLsbD_eq
  intro k hk
  rw [dataByte_getLsbD _ hk, joinCodeword_getLsbD, if_pos hk]

/-- A codeword is its two bytes. -/
theorem join_bytes (c : Word) : joinCodeword (parityByte c) (dataByte c) = c := by
  apply BitVec.eq_of_getLsbD_eq
  intro k hk
  rw [joinCodeword_getLsbD]
  split
  · next h => exact dataByte_getLsbD c h
  · next h => rw [parityByte_getLsbD c (by omega), show 8 + (k - 8) = k by omega]

theorem codeword_ext {c c' : Word} (hp : parityByte c = parityByte c') (hd : dataByte c = dataByte c') :
    c = c' := by
  rw [← join_bytes c, hp, hd, join_bytes]

@[simp] theorem parityByte_xor (c c' : Word) : parityByte (c ^^^ c') = parityByte c ^^^ parityByte c' := by
  simp [parityByte, BitVec.extractLsb'_xor]

@[simp] theorem dataByte_xor (c c' : Word) : dataByte (c ^^^ c') = dataByte c ^^^ dataByte c' := by
  simp [dataByte, BitVec.extractLsb'_xor]

@[simp] theorem parityByte_zero : parityByte 0#16 = 0#8 := by decide
@[simp] theorem dataByte_zero : dataByte 0#16 = 0#8 := by decide

end Sys2Proof.Machine
end

