-- ==== Sys2Proof/Laws/PerInstr.lean ====
section
/-! SUPPORT. For every operation: the word its encoder lays out fits the port it is applied to (rules R71, R79). -/

namespace Sys2Proof.Laws.EncodedWordFits

/-- The encoded word has the operation's width and is a value of that width. -/
def Statement (i : Instr) : Prop := (encodeInstr i).WellFormed

theorem pargen (d : Byte) : Statement (.pargen d) := ⟨rfl, d.isLt⟩

theorem encode (d : Byte) : Statement (.encode d) := ⟨rfl, d.isLt⟩

theorem synd (c : Word) : Statement (.synd c) := ⟨rfl, c.isLt⟩

theorem eplook (a : Byte) : Statement (.eplook a) := ⟨rfl, a.isLt⟩

theorem corr (c e : Word) : Statement (.corr c e) :=
  ⟨rfl, show c.toNat * 2 ^ 16 + e.toNat < 2 ^ 32 by have := c.isLt; have := e.isLt; omega⟩

theorem extract (cc : Word) : Statement (.extract cc) := ⟨rfl, cc.isLt⟩

theorem decode (c : Word) : Statement (.decode c) := ⟨rfl, c.isLt⟩

end Sys2Proof.Laws.EncodedWordFits
end

