-- ==== Sys2Proof/Laws/State.lean ====
section
/-! SUPPORT. One lemma per field per update of State, each true by computation, so that no proof unfolds a record
update. -/

namespace Sys2Proof.Machine

variable (s : State)

@[simp] theorem driveEncData_tables (d : Byte) : (s.driveEncData d).tables = s.tables := rfl
@[simp] theorem driveEncData_enc (d : Byte) : (s.driveEncData d).enc = .of s.tables.P d := rfl
@[simp] theorem driveEncData_dec (d : Byte) : (s.driveEncData d).dec = s.dec := rfl
@[simp] theorem driveEncData_rom (d : Byte) : (s.driveEncData d).rom = s.rom := rfl
@[simp] theorem driveEncData_corrector (d : Byte) : (s.driveEncData d).corrector = s.corrector := rfl
@[simp] theorem driveEncData_extractor (d : Byte) : (s.driveEncData d).extractor = s.extractor := rfl
@[simp] theorem driveEncData_applied (d : Byte) : (s.driveEncData d).applied = s.applied := rfl

@[simp] theorem driveDecCodeword_tables (c : Word) : (s.driveDecCodeword c).tables = s.tables := rfl
@[simp] theorem driveDecCodeword_enc (c : Word) : (s.driveDecCodeword c).enc = s.enc := rfl
@[simp] theorem driveDecCodeword_dec (c : Word) :
    (s.driveDecCodeword c).dec = .of s.tables.H s.tables.LUT c := rfl
@[simp] theorem driveDecCodeword_rom (c : Word) : (s.driveDecCodeword c).rom = s.rom := rfl
@[simp] theorem driveDecCodeword_corrector (c : Word) : (s.driveDecCodeword c).corrector = s.corrector := rfl
@[simp] theorem driveDecCodeword_extractor (c : Word) : (s.driveDecCodeword c).extractor = s.extractor := rfl
@[simp] theorem driveDecCodeword_applied (c : Word) : (s.driveDecCodeword c).applied = s.applied := rfl

@[simp] theorem driveRom_tables (a : Byte) : (s.driveRom a).tables = s.tables := rfl
@[simp] theorem driveRom_enc (a : Byte) : (s.driveRom a).enc = s.enc := rfl
@[simp] theorem driveRom_dec (a : Byte) : (s.driveRom a).dec = s.dec := rfl
@[simp] theorem driveRom_rom (a : Byte) : (s.driveRom a).rom = .of s.tables.LUT a := rfl
@[simp] theorem driveRom_corrector (a : Byte) : (s.driveRom a).corrector = s.corrector := rfl
@[simp] theorem driveRom_extractor (a : Byte) : (s.driveRom a).extractor = s.extractor := rfl
@[simp] theorem driveRom_applied (a : Byte) : (s.driveRom a).applied = s.applied := rfl

@[simp] theorem driveCorrector_tables (c e : Word) : (s.driveCorrector c e).tables = s.tables := rfl
@[simp] theorem driveCorrector_enc (c e : Word) : (s.driveCorrector c e).enc = s.enc := rfl
@[simp] theorem driveCorrector_dec (c e : Word) : (s.driveCorrector c e).dec = s.dec := rfl
@[simp] theorem driveCorrector_rom (c e : Word) : (s.driveCorrector c e).rom = s.rom := rfl
@[simp] theorem driveCorrector_corrector (c e : Word) : (s.driveCorrector c e).corrector = .of c e := rfl
@[simp] theorem driveCorrector_extractor (c e : Word) : (s.driveCorrector c e).extractor = s.extractor := rfl
@[simp] theorem driveCorrector_applied (c e : Word) : (s.driveCorrector c e).applied = s.applied := rfl

@[simp] theorem driveExtractor_tables (cc : Word) : (s.driveExtractor cc).tables = s.tables := rfl
@[simp] theorem driveExtractor_enc (cc : Word) : (s.driveExtractor cc).enc = s.enc := rfl
@[simp] theorem driveExtractor_dec (cc : Word) : (s.driveExtractor cc).dec = s.dec := rfl
@[simp] theorem driveExtractor_rom (cc : Word) : (s.driveExtractor cc).rom = s.rom := rfl
@[simp] theorem driveExtractor_corrector (cc : Word) : (s.driveExtractor cc).corrector = s.corrector := rfl
@[simp] theorem driveExtractor_extractor (cc : Word) : (s.driveExtractor cc).extractor = .of cc := rfl
@[simp] theorem driveExtractor_applied (cc : Word) : (s.driveExtractor cc).applied = s.applied := rfl

@[simp] theorem applyNext_applied (a : Applied) : (s.applyNext a).applied = a :: s.applied := rfl
@[simp] theorem applyNext_tables (a : Applied) : (s.applyNext a).tables = s.tables := rfl
@[simp] theorem nextApplied_applyNext (a : Applied) : (s.applyNext a).nextApplied = some (a, s) := rfl

end Sys2Proof.Machine
end

