-- ==== Sys2Proof/Laws/Units.lean ====
section
/-! SUPPORT. One lemma per unit that says what the unit computes, so that no proof unfolds it: bits of PARGEN and SYND,
bytes of ENCODE, the DECODE chain. -/

namespace Sys2Proof.Machine

/-- Parity index `i` of PARGEN (rule R90). -/
@[simp] theorem pargen_getLsbD (P : Vector Byte 8) (d : Byte) (i : Fin 8) :
    (pargen P d).getLsbD (7 - i.val) = redxor (P[i] &&& d) :=
  packRows_getLsbD _ i

/-- Row `i` of SYND (rule R110). -/
@[simp] theorem synd_getLsbD (H : Vector Word 8) (c : Word) (i : Fin 8) :
    (synd H c).getLsbD (7 - i.val) = redxor (H[i] &&& c) :=
  packRows_getLsbD _ i

/-- The parity byte of ENCODE (rule R91). -/
@[simp] theorem parityByte_encode (P : Vector Byte 8) (d : Byte) : parityByte (encodeByte P d) = pargen P d :=
  parityByte_join _ _

/-- The code is systematic: the data byte of ENCODE is its input (rule R91). -/
@[simp] theorem dataByte_encode (P : Vector Byte 8) (d : Byte) : dataByte (encodeByte P d) = d :=
  dataByte_join _ _

/-- EPLOOK is the entry at the address (rule R130). -/
theorem eplook_eq (LUT : Vector Word 256) (a : Byte) : eplook LUT a = LUT[a.toNat]'(a.isLt) := rfl

@[simp] theorem corr_eq (c e : Word) : corr c e = c ^^^ e := rfl

@[simp] theorem extract_eq (cc : Word) : extract cc = dataByte cc := rfl

/-- DECODE in one line (rule R152). -/
theorem decodeCodeword_eq (H : Vector Word 8) (LUT : Vector Word 256) (c : Word) :
    decodeCodeword H LUT c = dataByte (c ^^^ eplook LUT (synd H c)) := rfl

/-- The decode path's ports in one line (rule R152). -/
theorem decodePorts_of_eq (H : Vector Word 8) (LUT : Vector Word 256) (c : Word) :
    DecodePorts.of H LUT c = ⟨c, synd H c, eplook LUT (synd H c), c ^^^ eplook LUT (synd H c),
      dataByte (c ^^^ eplook LUT (synd H c))⟩ := rfl

/-- The identity block's row `i` has bit `7-i` alone (rule R23). -/
theorem redxor_identityRow (i : Fin 8) (p : Byte) : redxor (identityRow i &&& p) = p.getLsbD (7 - i.val) := by
  have : identityRow i = oneBit 8 (7 - i.val) := by revert i; decide
  rw [this, BitVec.and_comm]
  exact redxor_and_oneBit p (by omega)

/-- AND meets concatenation half by half. -/
theorem join_and (p d p' d' : Byte) :
    joinCodeword p d &&& joinCodeword p' d' = joinCodeword (p &&& p') (d &&& d') := by
  apply BitVec.eq_of_getLsbD_eq
  intro k _
  simp only [BitVec.getLsbD_and, joinCodeword_getLsbD]
  split <;> rfl

/-- The reduction of a masked codeword, half by half. -/
theorem redxor_and_join (m : Word) (p d : Byte) :
    redxor (m &&& joinCodeword p d) = (redxor (parityByte m &&& p) ^^ redxor (dataByte m &&& d)) := by
  conv_lhs => rw [← join_bytes m, join_and]
  exact redxor_append _ _

end Sys2Proof.Machine
end

