-- ==== Sys2Proof/Laws/Step.lean ====
section
/-! SUPPORT. What an evaluation and a step can do, said once: each operation drives one input, and a step pops the
outside's next word. Proofs cite these and do not unfold `exec` or `step`. -/

namespace Sys2Proof.Machine

/-! Each operation's next state. -/

@[simp] theorem exec_pargen (d : Byte) (s : State) : exec (.pargen d) s = .next (s.driveEncData d) := rfl
@[simp] theorem exec_encode (d : Byte) (s : State) : exec (.encode d) s = .next (s.driveEncData d) := rfl
@[simp] theorem exec_synd (c : Word) (s : State) : exec (.synd c) s = .next (s.driveDecCodeword c) := rfl
@[simp] theorem exec_eplook (a : Byte) (s : State) : exec (.eplook a) s = .next (s.driveRom a) := rfl
@[simp] theorem exec_corr (c e : Word) (s : State) : exec (.corr c e) s = .next (s.driveCorrector c e) := rfl
@[simp] theorem exec_extract (cc : Word) (s : State) : exec (.extract cc) s = .next (s.driveExtractor cc) := rfl
@[simp] theorem exec_decode (c : Word) (s : State) : exec (.decode c) s = .next (s.driveDecCodeword c) := rfl

/-- What an evaluation can do: drive one of the five inputs. -/
theorem exec_cases {i : Instr} {s t : State} (h : exec i s = .next t) :
    (∃ d, t = s.driveEncData d) ∨ (∃ c, t = s.driveDecCodeword c) ∨ (∃ a, t = s.driveRom a) ∨
      (∃ c e, t = s.driveCorrector c e) ∨ ∃ cc, t = s.driveExtractor cc := by
  cases i <;> simp at h <;> subst h <;> simp

/-! Each input driven leaves settled wires settled. -/

theorem settled_driveEncData {s : State} (h : s.Settled) (d : Byte) : (s.driveEncData d).Settled :=
  { h with encParity := rfl, encCodeword := rfl }

theorem settled_driveDecCodeword {s : State} (h : s.Settled) (c : Word) : (s.driveDecCodeword c).Settled :=
  { h with decSyndrome := rfl, decPattern := rfl, decCorrected := rfl, decData := rfl }

theorem settled_driveRom {s : State} (h : s.Settled) (a : Byte) : (s.driveRom a).Settled :=
  { h with romPattern := rfl }

theorem settled_driveCorrector {s : State} (h : s.Settled) (c e : Word) : (s.driveCorrector c e).Settled :=
  { h with corrected := rfl }

theorem settled_driveExtractor {s : State} (h : s.Settled) (cc : Word) : (s.driveExtractor cc).Settled :=
  { h with extracted := rfl }

/-! Decoding an applied word. -/

theorem decodeInstr_of_wellFormed {a : Applied} (h : a.WellFormed) :
    decodeInstr a.op a.word = .ok (operands a.op a.word.value) := by
  simp [decodeInstr, h.1, Nat.not_le.mpr (h.1 ▸ h.2 : a.word.value < 2 ^ a.op.width)]

theorem wellFormed_of_decodeInstr {a : Applied} {i : Instr} (h : decodeInstr a.op a.word = .ok i) :
    a.WellFormed ∧ i = operands a.op a.word.value := by
  unfold decodeInstr at h
  split at h
  · cases h
  · split at h
    · cases h
    · next hw hv => exact ⟨⟨not_not.mp hw, not_le.mp hv⟩, by injection h with h; exact h.symm⟩

/-! The step. -/

theorem step_nil {s : State} (h : s.applied = []) : step s = .next s := by
  simp [step, State.nextApplied, h]

theorem step_ok {s : State} {a : Applied} {rest : List Applied} {i : Instr} (h : s.applied = a :: rest)
    (hd : decodeInstr a.op a.word = .ok i) : step s = exec i { s with applied := rest } := by
  simp only [step, State.nextApplied, h, hd]

theorem step_error {s : State} {a : Applied} {rest : List Applied} {e : DecodeError}
    (h : s.applied = a :: rest) (hd : decodeInstr a.op a.word = .error e) :
    step s = .refused (refusalOf e) := by
  simp only [step, State.nextApplied, h, hd]

/-- What a step that goes on can do: nothing, or evaluate the next word, which fits its port. -/
theorem step_cases {s t : State} (h : step s = .next t) :
    (s.applied = [] ∧ t = s) ∨
      ∃ a rest, s.applied = a :: rest ∧ a.WellFormed ∧
        exec (operands a.op a.word.value) { s with applied := rest } = .next t := by
  cases hs : s.applied with
  | nil => rw [step_nil hs] at h; injection h with h; exact .inl ⟨rfl, h.symm⟩
  | cons a rest =>
    cases hd : decodeInstr a.op a.word with
    | error e => rw [step_error hs hd] at h; cases h
    | ok i =>
      obtain ⟨hw, rfl⟩ := wellFormed_of_decodeInstr hd
      exact .inr ⟨a, rest, rfl, hw, step_ok hs hd ▸ h⟩

/-! Runs. -/

/-- A run of a step and then the rest. -/
theorem run_of_step {k : Nat} {s t : State} (h : step s = .next t) :
    Host.Core.run core (k + 1) s = Host.Core.run core k t := by
  have h' : core.step s = .next t := h
  simp only [Host.Core.run, h']

/-- A run that goes on took a first step that did. -/
theorem run_succ_cases {k : Nat} {s u : State} (h : Host.Core.run core (k + 1) s = .next u) :
    ∃ t, step s = .next t ∧ Host.Core.run core k t = .next u := by
  simp only [Host.Core.run] at h
  cases hs : core.step s with
  | next t => rw [hs] at h; exact ⟨t, hs, h⟩
  | fault r => rw [hs] at h; cases h
  | refused r => rw [hs] at h; cases h

end Sys2Proof.Machine
end

