-- ==== Sys2Proof/Laws/Weight.lean ====
section
/-! SUPPORT. The weight of a value: a nonzero weight has a set bit, and flipping a set bit lowers the weight by one. -/

namespace Sys2Proof.Machine

/-- The bits of `1 << p`. -/
theorem oneBit_getLsbD {w p b : Nat} (hb : b < w) : (oneBit w p).getLsbD b = decide (b = p) := by
  simp only [oneBit, BitVec.getLsbD_shiftLeft, BitVec.getLsbD_one]
  rcases Nat.lt_trichotomy b p with h | h | h
  · simp [h, h.ne]
  · subst h; simp [hb]; omega
  · have : b - p ≠ 0 := by omega
    simp [this]; omega

/-- A value of nonzero weight has a set bit. -/
theorem exists_bit_of_popcountLow {w n : Nat} {v : BitVec w} (h : popcountLow v n ≠ 0) :
    ∃ b < n, v.getLsbD b = true := by
  induction n with
  | zero => exact absurd rfl h
  | succ n ih =>
    by_cases hb : v.getLsbD n = true
    · exact ⟨n, by omega, hb⟩
    · obtain ⟨b, hlt, hset⟩ := ih (by simpa [popcountLow, hb] using h)
      exact ⟨b, by omega, hset⟩

theorem popcountLow_congr {w n : Nat} {x y : BitVec w} (h : ∀ b < n, x.getLsbD b = y.getLsbD b) :
    popcountLow x n = popcountLow y n := by
  induction n with
  | zero => rfl
  | succ n ih =>
    simp only [popcountLow, h n (Nat.lt_succ_self n), ih fun b hb => h b (Nat.lt_succ_of_lt hb)]

/-- Flipping a set bit lowers the weight by one. -/
theorem popcountLow_flip {w p n : Nat} {v : BitVec w} (hp : p < n) (hn : n ≤ w) (hset : v.getLsbD p = true) :
    popcountLow v n = popcountLow (v ^^^ oneBit w p) n + 1 := by
  have bit : ∀ b < w, (v ^^^ oneBit w p).getLsbD b = (v.getLsbD b ^^ decide (b = p)) := fun b hb => by
    rw [BitVec.getLsbD_xor, oneBit_getLsbD hb]
  induction n with
  | zero => omega
  | succ n ih =>
    simp only [popcountLow, bit n (by omega)]
    by_cases e : n = p
    · subst e
      rw [popcountLow_congr (x := v ^^^ oneBit w n) (y := v) fun b hb => by
        rw [bit b (by omega)]; simp [show b ≠ n by omega], hset]
      simp; omega
    · simp only [e, decide_false, Bool.xor_false]
      rw [ih (by omega) (by omega)]; omega

theorem popcount_flip {w p : Nat} {v : BitVec w} (hp : p < w) (hset : v.getLsbD p = true) :
    popcount v = popcount (v ^^^ oneBit w p) + 1 :=
  popcountLow_flip hp le_rfl hset

/-- Only zero has weight 0. -/
theorem eq_zero_of_popcount {w : Nat} {v : BitVec w} (h : popcount v = 0) : v = 0#w := by
  apply BitVec.eq_of_getLsbD_eq
  intro b hb
  by_contra hne
  have := popcount_flip (v := v) hb (by simpa using hne)
  omega

end Sys2Proof.Machine
end

