-- ==== Sys2Proof/Tests/Example.lean ====
section
/-! SUPPORT. The example constants EX1 of 95_test_vectors.md section 2: a test fixture of the spec, NOT the hardware's
constants. -/

namespace Sys2Proof.Tests

open Machine

/-- `P` of section 2.1, not symmetric. -/
def ex1P : Vector Byte 8 := #v[0xB7, 0x5E, 0xE9, 0x3D, 0xD3, 0x6B, 0x8F, 0xF4]

/-- `H` of section 2.2. -/
def ex1H : Vector Word 8 := #v[0x80B7, 0x405E, 0x20E9, 0x103D, 0x08D3, 0x046B, 0x028F, 0x01F4]

/-- Addresses 0x00 to 0x3f of section 2.4. -/
def ex1Lut0 : List Word := [
  0x0000, 0x0100, 0x0200, 0x0300, 0x0400, 0x0500, 0x0600, 0x0000,
  0x0800, 0x0900, 0x0014, 0x0021, 0x0C00, 0x0000, 0x0000, 0x0000,
  0x1000, 0x1100, 0x1200, 0x0000, 0x1400, 0x0081, 0x0000, 0x0012,
  0x1800, 0x0000, 0x0000, 0x0048, 0x0000, 0x0006, 0x00A0, 0x0000,
  0x2000, 0x2100, 0x2200, 0x0000, 0x2400, 0x0000, 0x0000, 0x0000,
  0x2800, 0x0000, 0x0000, 0x8080, 0x0000, 0x4040, 0x0000, 0x0000,
  0x3000, 0x0000, 0x0000, 0x0000, 0x0000, 0x8020, 0x4008, 0x0000,
  0x0000, 0x0000, 0x0000, 0x0000, 0x0000, 0x0000, 0x8001, 0x0000]

/-- Addresses 0x40 to 0x7f of section 2.4. -/
def ex1Lut1 : List Word := [
  0x4000, 0x4100, 0x4200, 0x0000, 0x4400, 0x0000, 0x0000, 0x0000,
  0x4800, 0x0000, 0x0000, 0x0000, 0x0000, 0x2040, 0x8002, 0x0000,
  0x5000, 0x0000, 0x0000, 0x8004, 0x0000, 0x0000, 0x2008, 0x0000,
  0x0000, 0x8010, 0x0000, 0x0000, 0x0000, 0x0000, 0x0000, 0x0000,
  0x6000, 0x0000, 0x0000, 0x0000, 0x0000, 0x0082, 0x0024, 0x0011,
  0x0000, 0x0440, 0x0000, 0x0000, 0x0030, 0x0040, 0x0000, 0x0240,
  0x0003, 0x0000, 0x0090, 0x0000, 0x0208, 0x0000, 0x0008, 0x0108,
  0x0084, 0x0000, 0x0000, 0x0022, 0x0000, 0x1040, 0x0808, 0x0000]

/-- Addresses 0x80 to 0xbf of section 2.4. -/
def ex1Lut2 : List Word := [
  0x8000, 0x8100, 0x8200, 0x0000, 0x8400, 0x0000, 0x0000, 0x0000,
  0x8800, 0x0000, 0x0000, 0x2080, 0x0000, 0x0000, 0x4002, 0x0000,
  0x9000, 0x0000, 0x0000, 0x4004, 0x0000, 0x2020, 0x0000, 0x0000,
  0x0000, 0x4010, 0x0000, 0x0000, 0x0000, 0x0000, 0x2001, 0x0000,
  0xA000, 0x0000, 0x0000, 0x0042, 0x0000, 0x000C, 0x0000, 0x0000,
  0x0000, 0x0280, 0x0180, 0x0080, 0x0000, 0x0000, 0x1001, 0x0018,
  0x0000, 0x0420, 0x0000, 0x0000, 0x0050, 0x0020, 0x0801, 0x0220,
  0x000A, 0x0000, 0x0401, 0x1080, 0x0201, 0x0820, 0x0001, 0x0101]

/-- Addresses 0xc0 to 0xff of section 2.4. -/
def ex1Lut3 : List Word := [
  0xC000, 0x0000, 0x0000, 0x0028, 0x0000, 0x0000, 0x00C0, 0x0000,
  0x0009, 0x1010, 0x0402, 0x0000, 0x0202, 0x0000, 0x0002, 0x0102,
  0x0000, 0x0204, 0x0104, 0x0004, 0x0000, 0x0000, 0x0000, 0x0404,
  0x0060, 0x0010, 0x0000, 0x0210, 0x0000, 0x0088, 0x1002, 0x0000,
  0x0000, 0x0000, 0x0000, 0x0000, 0x0000, 0x0000, 0x0000, 0x0000,
  0x0000, 0x0000, 0x0000, 0x4080, 0x0000, 0x8040, 0x2002, 0x0000,
  0x0000, 0x0000, 0x0000, 0x2004, 0x0000, 0x4020, 0x8008, 0x0000,
  0x0000, 0x2010, 0x0000, 0x0000, 0x0000, 0x0000, 0x4001, 0x0000]

/-- The table of section 2.4, in address order. -/
def ex1Lut : Vector Word 256 := ⟨(ex1Lut0 ++ ex1Lut1 ++ ex1Lut2 ++ ex1Lut3).toArray, by decide +kernel⟩

/-- EX1. -/
def ex1 : Tables := ⟨ex1P, ex1H, ex1Lut⟩

/-- A settled state over given tables: every input 0, nothing waiting. -/
def stateOf (T : Tables) : State :=
  ⟨T, .of T.P 0, .of T.H T.LUT 0, .of T.LUT 0, .of 0 0, .of 0, []⟩

/-- A small state over EX1. -/
def ex1State : State := stateOf ex1

end Sys2Proof.Tests
end

