-- ==== Sys2Proof/Tests/Slice0.lean ====
section
/-! SUPPORT. Tests of the model's own: what does not fit a port is refused; input words written out from the spec read as
their operations; each operation on the spec's vectors (95_test_vectors.md, expected values copied from there); and for
every statement with hypotheses a case that meets them (names witness_…). -/

namespace Sys2Proof.Tests

open Machine

/-! ### What does not fit is refused -/

/-- 16 wires on an 8-bit port. -/
theorem test_wrong_width_ill_formed : ¬ (Applied.mk .pargen ⟨16, 3⟩).WellFormed := by decide
theorem test_wrong_width_refused : decodeInstr .pargen ⟨16, 3⟩ = .error .wrongWidth := by decide
/-- The number 256 on 8 wires. -/
theorem test_too_wide_ill_formed : ¬ (Applied.mk .eplook ⟨8, 256⟩).WellFormed := by decide
theorem test_too_wide_refused : decodeInstr .eplook ⟨8, 256⟩ = .error .tooWide := by decide
theorem test_step_refuses_misfit :
    step { ex1State with applied := [⟨.decode, ⟨8, 3⟩⟩] } = .refused .wrongWidth := rfl
theorem test_step_refuses_too_wide :
    step { ex1State with applied := [⟨.decode, ⟨16, 65536⟩⟩] } = .refused .tooWide := rfl

/-! ### Input words, from 95_test_vectors.md section 4 and rules R71, R72 -/

theorem test_word_pargen : decodeInstr .pargen ⟨8, 0b10101010⟩ = .ok (.pargen 0xAA) := by decide
theorem test_word_encode : decodeInstr .encode ⟨8, 0b00111100⟩ = .ok (.encode 0x3C) := by decide
theorem test_word_synd : decodeInstr .synd ⟨16, 0b1000011010101010⟩ = .ok (.synd 0x86AA) := by decide
theorem test_word_eplook : decodeInstr .eplook ⟨8, 0b00100000⟩ = .ok (.eplook 0x20) := by decide
/-- `c` in bits 31..16, `e` in bits 15..0 (R71, R81). -/
theorem test_word_corr :
    decodeInstr .corr ⟨32, 0b10000110101010100010000000000000⟩ = .ok (.corr 0x86AA 0x2000) := by decide
theorem test_word_extract : decodeInstr .extract ⟨16, 0b1010011010101010⟩ = .ok (.extract 0xA6AA) := by decide
theorem test_word_decode : decodeInstr .decode ⟨16, 0b1100100100111100⟩ = .ok (.decode 0xC93C) := by decide
theorem test_encode_corr : encodeInstr (.corr 0x86AA 0x2000) = ⟨.corr, ⟨32, 0x86AA2000⟩⟩ := by decide
theorem test_table_words : decodeTableWord 8 0 = some (.encode 0) ∧ decodeTableWord 16 0 = some (.decode 0) ∧
    decodeTableWord 32 0 = some (.corr 0 0) ∧ decodeTableWord 24 0 = none := by decide

/-! ### Operations on EX1 (sections 3 and 4) -/

/-- Section 3.2, the hand computation of rule R90. -/
theorem test_pargen : ∃ t, exec (.pargen 0xAA) ex1State = .next t ∧ t.enc.parity = 0xA6 := ⟨_, rfl, by decide⟩
/-- Section 3.2: column of data bit 0, which tells the rows' order. -/
theorem test_pargen_column : ∃ t, exec (.pargen 0x01) ex1State = .next t ∧ t.enc.parity = 0xBE :=
  ⟨_, rfl, by decide⟩
/-- Program 1. -/
theorem test_encode : ∃ t, exec (.encode 0x3C) ex1State = .next t ∧ t.enc.codeword = 0xC93C ∧ t.enc.parity = 0xC9 :=
  ⟨_, rfl, by decide⟩
/-- Section 3.2: a data byte with parity byte 0. -/
theorem test_encode_zero_parity : ∃ t, exec (.encode 0x45) ex1State = .next t ∧ t.enc.codeword = 0x0045 :=
  ⟨_, rfl, by decide⟩
/-- Program 2: only row 2 is odd. -/
theorem test_synd : ∃ t, exec (.synd 0x86AA) ex1State = .next t ∧ t.dec.syndrome = 0x20 := ⟨_, rfl, by decide⟩
/-- Section 3.3. -/
theorem test_synd_dead : ∃ t, exec (.synd 0xDEAD) ex1State = .next t ∧ t.dec.syndrome = 0xDB :=
  ⟨_, rfl, by decide⟩
/-- Section 3.4: a weight-2 leader. -/
theorem test_eplook : ∃ t, exec (.eplook 0x70) ex1State = .next t ∧ t.rom.pattern = 0x0003 := ⟨_, rfl, by decide⟩
/-- Section 3.4: the last address declines. -/
theorem test_eplook_last : ∃ t, exec (.eplook 0xFF) ex1State = .next t ∧ t.rom.pattern = 0x0000 :=
  ⟨_, rfl, by decide⟩
/-- Section 3.1. -/
theorem test_corr : ∃ t, exec (.corr 0x1234 0xFFFF) ex1State = .next t ∧ t.corrector.corrected = 0xEDCB :=
  ⟨_, rfl, by decide⟩
/-- Section 3.1. -/
theorem test_extract : ∃ t, exec (.extract 0xFF00) ex1State = .next t ∧ t.extractor.data = 0x00 :=
  ⟨_, rfl, by decide⟩
/-- Program 4: silent miscorrection, with its by-products. -/
theorem test_decode_miscorrects : ∃ t, exec (.decode 0xA6AF) ex1State = .next t ∧
    t.dec = ⟨0xA6AF, 0x6D, 0x0040, 0xA6EF, 0xEF⟩ := ⟨_, rfl, by decide⟩
/-- Section 3.5: a weight-2 entry applied. -/
theorem test_decode_dead : ∃ t, exec (.decode 0xDEAD) ex1State = .next t ∧
    t.dec = ⟨0xDEAD, 0xDB, 0x0210, 0xDCBD, 0xBD⟩ := ⟨_, rfl, by decide⟩
/-- Section 3.6: the literal column reading of `H` breaks the zero-syndrome invariant, with syndrome 0xA4. -/
theorem test_column_reading :
    synd #v[0x80AB, 0x406D, 0x20B5, 0x10D9, 0x0876, 0x04D3, 0x02CE, 0x01BE] 0xA6AA = 0xA4 := by decide
/-- Section 3.6: the columns of EX1's `P`. -/
theorem test_columns : (List.finRange 8).map (columnByte ex1P) = [0xAB, 0x6D, 0xB5, 0xD9, 0x76, 0xD3, 0xCE, 0xBE] := by
  decide

/-- Section 3.5: 102 of the 120 two-bit errors give the original byte back, 16 of 16 one-bit errors. -/
theorem test_two_bit_count :
    ((List.range 16).flatMap fun q => (List.range q).map fun p => oneBit 16 p ^^^ oneBit 16 q).countP
      (fun x => dataByte (residualError ex1 x) = 0) = 102 := by decide +kernel
theorem test_one_bit_count :
    (List.range 16).countP (fun p => dataByte (residualError ex1 (oneBit 16 p)) = 0) = 16 := by decide +kernel
/-- A word placed for the first step after reset is evaluated by it, whatever the tables. -/
theorem test_first_step : ∃ t, step (State.reset.withFetchWord 16 0xC93C) = .next t ∧ t.dec.codeword = 0xC93C :=
  ⟨_, rfl, rfl⟩
theorem test_first_step_corr : ∃ t, step (State.reset.withFetchWord 32 0x86AA2000) = .next t ∧
    t.corrector.corrected = 0xA6AA := ⟨_, rfl, by decide⟩

/-! ### The premises hold of EX1 (end of section 2.4) -/

theorem witness_WF_H : WF_H ex1State.tables := by decide
theorem witness_identity_block : HasIdentityBlock ex1H := by decide
theorem witness_WF_LUT0 : WF_LUT0 ex1State.tables := by decide
theorem witness_WF_LUT_SB : WF_LUT_SB ex1State.tables := by decide
theorem witness_SEC_P : SEC_P ex1State.tables := by decide
theorem witness_WF_LUT_COSET : WF_LUT_COSET ex1State.tables := by decide +kernel
/-- RoundTripWithoutNoise, WorkedExample, ConstructionChecksAreImplied: their premises together. -/
theorem witness_round_trip : WF_H ex1State.tables ∧ WF_LUT0 ex1State.tables := ⟨witness_WF_H, witness_WF_LUT0⟩
/-- SingleFlipIsCorrected, FixedTableEntries, ConstructionChecksAreImplied: their premises together. -/
theorem witness_single_error : WF_H ex1State.tables ∧ SEC_P ex1State.tables ∧ WF_LUT_SB ex1State.tables :=
  ⟨witness_WF_H, witness_SEC_P, witness_WF_LUT_SB⟩
/-- CosetTableCorrectsToValidWords: its premises together. -/
theorem witness_coset : WF_H ex1State.tables ∧ WF_LUT_COSET ex1State.tables := ⟨witness_WF_H, witness_WF_LUT_COSET⟩
/-- LawsHoldUnderTheirPremises: EX1 meets every row's premises. -/
theorem witness_law_premises (law : Law) : law.Premises ex1 := by
  cases law with
  | linear => trivial
  | systematic => trivial
  | parityDifference => exact witness_WF_H
  | zeroSyndrome => exact witness_WF_H
  | zeroIffValid => exact witness_WF_H
  | roundTrip => exact witness_round_trip
  | errorDecomposition => exact witness_WF_H
  | flipAt p => exact ⟨witness_WF_H, witness_WF_LUT_SB p fun q hq => witness_SEC_P.2 q p hq⟩
  | flipAnywhere => exact witness_single_error
  | noOp => exact witness_WF_LUT0
  | validOrUnchanged => exact witness_coset
/-- The worked example on EX1 (section 1, S6; program 2): C = 0xA6AA, received 0x86AA. -/
theorem test_worked_words : workedCodeword ex1P = 0xA6AA ∧ workedReceived ex1P = 0x86AA := by decide
/-- S6: the flipped word decodes to 0xAA with syndrome 0x20 and pattern 0x2000. -/
theorem test_worked_example : decodePath ex1 0x86AA = ⟨0x86AA, 0x20, 0x2000, 0xA6AA, 0xAA⟩ := by decide
/-- EX1 is not symmetric (section 2.1). -/
theorem test_ex1_not_symmetric : ¬ SymmetricP ex1P := by decide

/-! ### Cases that meet the statements' hypotheses -/

/-- A settled state with one word for each width waiting, the last value of each port. -/
def busyState : State :=
  { ex1State with applied := [⟨.eplook, ⟨8, 0xFF⟩⟩, ⟨.decode, ⟨16, 0xFFFF⟩⟩, ⟨.corr, ⟨32, 0xFFFFFFFF⟩⟩] }

/-- EX1's `P` with other `H` and `LUT`. -/
def otherState : State := stateOf ⟨ex1P, Vector.replicate 8 0, Vector.replicate 256 0⟩

/-- All-zero `P` with the `H` that goes with it: every data position has syndrome 0. -/
def zeroP : Tables :=
  ⟨Vector.replicate 8 0, #v[0x8000, 0x4000, 0x2000, 0x1000, 0x0800, 0x0400, 0x0200, 0x0100], Vector.replicate 256 0⟩

theorem settled_stateOf (T : Tables) : (stateOf T).Settled := ⟨rfl, rfl, rfl, rfl, rfl, rfl, rfl, rfl, rfl⟩

theorem witness_Inv : busyState.Inv := ⟨{ settled_stateOf ex1 with }, by decide⟩
/-- EncodeOfDecode, StepRunsTheDecodedOperation. -/
theorem witness_decodes : busyState.applied.head? = some ⟨.eplook, ⟨8, 0xFF⟩⟩ ∧
    decodeInstr .eplook ⟨8, 0xFF⟩ = .ok (.eplook 0xFF) := by decide
/-- EveryInputValueIsLegal, at both ends of the widest port. -/
theorem witness_legal_values : 0 < 2 ^ Op.corr.width ∧ 0xFFFFFFFF < 2 ^ Op.corr.width := by decide
/-- A state with one word of given width and number waiting at the decode port. -/
def waiting (width value : Nat) : State := { ex1State with applied := [⟨.decode, ⟨width, value⟩⟩] }
/-- StepWithoutAnOperation, its three clauses: no word, a word of another width, the least number that is too wide. -/
theorem witness_no_operation : ex1State.applied = [] ∧
    ((waiting 8 3).applied = [⟨.decode, ⟨8, 3⟩⟩] ∧ decodeInstr .decode ⟨8, 3⟩ = .error .wrongWidth) ∧
    ((waiting 16 65536).applied = [⟨.decode, ⟨16, 65536⟩⟩] ∧ decodeInstr .decode ⟨16, 65536⟩ = .error .tooWide) :=
  ⟨rfl, ⟨rfl, by decide⟩, rfl, by decide⟩
/-- CorrGivesTheCorrectedCodeword, its corner cases: a zero pattern, an all-ones pattern, a pattern equal to the codeword
(section 3.1), and the last two at once. -/
theorem witness_corr_cases :
    (∃ t, exec (.corr 0xA6AA 0x0000) ex1State = .next t ∧ t.corrector.corrected = 0xA6AA) ∧
    (∃ t, exec (.corr 0x1234 0xFFFF) ex1State = .next t ∧ t.corrector.corrected = ~~~0x1234) ∧
    (∃ t, exec (.corr 0x1234 0x1234) ex1State = .next t ∧ t.corrector.corrected = 0x0000) ∧
    ∃ t, exec (.corr 0xFFFF 0xFFFF) ex1State = .next t ∧ t.corrector.corrected = 0x0000 :=
  ⟨⟨_, rfl, by decide⟩, ⟨_, rfl, by decide⟩, ⟨_, rfl, by decide⟩, ⟨_, rfl, by decide⟩⟩
/-- StepKeepsTheWiresSettled, ConstantsAreNeverWritten, StepGoesOnWhereTheWordFits: a step that goes on, from a state that meets the
invariant. -/
theorem witness_step_next : busyState.Inv ∧ (∀ a ∈ busyState.applied.head?, a.WellFormed) ∧ ∃ t, step busyState = .next t :=
  ⟨witness_Inv, by decide, _, rfl⟩
/-- LookupIsTheSameAtEveryTime: a run that goes on. -/
theorem witness_run_next : ∃ t : State, Host.Core.run core 3 busyState = .next t := ⟨_, rfl⟩
/-- The three frames, EarlierInputsLeaveNoTrace: evaluations that go on. -/
theorem witness_exec_next : (∃ t, exec (.pargen 0xFF) ex1State = .next t) ∧ (∃ t, exec (.encode 0) ex1State = .next t) ∧
    (∃ t, exec (.synd 0xFFFF) ex1State = .next t) ∧ (∃ t, exec (.decode 0) ex1State = .next t) ∧
    (∃ t, exec (.eplook 0xFF) ex1State = .next t) ∧ (∃ t, exec (.corr 0xFFFF 0) ex1State = .next t) ∧
    ∃ t, exec (.extract 0xFFFF) ex1State = .next t :=
  ⟨⟨_, rfl⟩, ⟨_, rfl⟩, ⟨_, rfl⟩, ⟨_, rfl⟩, ⟨_, rfl⟩, ⟨_, rfl⟩, ⟨_, rfl⟩⟩
/-- Clauses of PargenGivesTheParityByte and SyndGivesTheSyndrome: a zero row, and the one-bit operand at both ends. -/
theorem witness_corner_cases : zeroP.P[7] = 0 ∧ (stateOf ⟨ex1P, Vector.replicate 8 0, ex1Lut⟩).tables.H[0] = 0 ∧
    (0x01 : Byte) = oneBit 8 (0 : Fin 8) ∧ (0x80 : Byte) = oneBit 8 (7 : Fin 8) ∧
    (0x0001 : Word) = oneBit 16 (0 : Fin 16) ∧ (0x8000 : Word) = oneBit 16 (15 : Fin 16) := by decide
/-- EplookGivesTheEntry, DecodeGivesTheDataByte: the first and last address. -/
theorem witness_addresses : (0x00 : Byte).toNat = (0 : Fin 256).val ∧ (0xFF : Byte).toNat = (255 : Fin 256).val := by decide
/-- ExtractGivesTheLowByte: two words that agree on the low byte only. -/
theorem witness_same_low_byte : ∀ b : Fin 8, (0xA6AA : Word).getLsbD b = (0x01AA : Word).getLsbD b := by decide
/-- PiecesDoNotInteract and the second clause of EarlierInputsLeaveNoTrace. -/
theorem witness_pieces : Part.of (.encode 0x55) ≠ Part.of (.decode 0xFFFF) ∧ Part.of (.pargen 1) = Part.of (.encode 2) := by
  decide
/-- EncodeReadsOnlyP: same `P`, other `H` and `LUT`. -/
theorem witness_same_P : ex1State.tables.P = otherState.tables.P ∧ ex1State.tables.H ≠ otherState.tables.H ∧
    eplook ex1State.tables.LUT 1 ≠ eplook otherState.tables.LUT 1 := by decide
/-- SyndReadsOnlyH, DecodeReadsHAndOneEntry: same `H` and the entry of the syndrome, other `P`, another entry elsewhere. -/
theorem witness_same_H : let s := stateOf ⟨Vector.replicate 8 0, ex1H, Vector.replicate 256 0⟩
    ex1State.tables.H = s.tables.H ∧ ex1State.tables.P ≠ s.tables.P ∧ eplook ex1State.tables.LUT 1 ≠ eplook s.tables.LUT 1 ∧
    eplook ex1Lut (synd ex1H 0xA6AA) = eplook s.tables.LUT (synd ex1H 0xA6AA) := by decide
/-- RedxorIsTheParityOfTheWeight: the same width and a wider one; ParityFormsAgree: the products taken backwards. -/
theorem witness_widths_and_order : 8 ≤ 8 ∧ 8 ≤ 16 ∧ [7, 6, 5, 4, 3, 2, 1, 0].Perm (List.range 8) := by decide
/-- ZeroSyndromeForcesTheRowForm, the column reading. -/
theorem witness_column_form : let H : Vector Word 8 := #v[0x80AB, 0x406D, 0x20B5, 0x10D9, 0x0876, 0x04D3, 0x02CE, 0x01BE]
    ∀ i : Fin 8, H[i] = joinCodeword (identityRow i) (columnByte ex1P i) := by decide
/-- ZeroSyndromeIffValid: a valid word and a valid error. -/
theorem witness_valid : Valid ex1P 0xA6AA ∧ Valid ex1P 0x0045 := by decide
/-- SingleFlipIsCorrected: the first and last position; the weaker condition with an entry that is not the bit. -/
theorem witness_flip_entries : eplook ex1Lut (synd ex1H (oneBit 16 0)) = oneBit 16 0 ∧
    eplook ex1Lut (synd ex1H (oneBit 16 15)) = oneBit 16 15 ∧ dataByte (eplook ex1Lut (oneBit 8 (8 - 8))) = 0 ∧
    dataByte (eplook zeroP.LUT (oneBit 8 (15 - 8))) = 0 ∧ WF_H zeroP := by decide
/-- ZeroSyndromePassesThrough, ZeroPatternPassesThrough, OuterSignalsFromTheOutputs: a zero syndrome; a nonzero one with a
zero entry. -/
theorem witness_pass_through : WF_LUT0 ex1 ∧ WF_H ex1 ∧ synd ex1H 0xA6AA = 0 ∧ synd ex1H 0xA689 = 0xC5 ∧ eplook ex1Lut 0xC5 = 0 := by decide
/-- SilentMiscorrection, the three cases (section 3.5). -/
theorem witness_three_cases : eplook ex1Lut (synd ex1H 0x0003) = 0x0003 ∧
    (eplook ex1Lut (synd ex1H 0x0005) ≠ 0x0005 ∧ eplook ex1Lut (synd ex1H 0x0005) ≠ 0) ∧
    eplook ex1Lut (synd ex1H 0x0023) = 0 := by decide
/-- SingleErrorCorrectionIsDistanceThree: two positions with one syndrome, and two valid words. -/
theorem witness_collision : WF_H zeroP ∧ (0 : Fin 16) ≠ 7 ∧ synd zeroP.H (oneBit 16 (0 : Fin 16)) = synd zeroP.H (oneBit 16 (7 : Fin 16)) ∧
    Valid ex1P 0xA6AA ∧ Valid ex1P 0x0000 := by decide
/-- WorkedExample. -/
theorem witness_bit_13 : eplook ex1State.tables.LUT 0x20 = 0x2000 := by decide
/-- CosetTableCorrectsToValidWords: a nonzero entry, a zero syndrome, a zero entry. -/
theorem witness_coset_cases : eplook ex1Lut (synd ex1H 0x86AA) ≠ 0 ∧ synd ex1H 0xA6AA = 0 ∧
    eplook ex1Lut (synd ex1H 0xA689) = 0 := by decide

end Sys2Proof.Tests
end

section
/-! PROOFS. The reduction against the weight and against widening (rule R10, conflict C6), and which words decoding
rejects, by which name (log entry 7). -/

namespace Sys2Proof.Machine

/-! The reduction and the weight. -/

/-- One more bit flips the reduction exactly when it flips the parity of the weight. -/
theorem redxorLow_eq_parity {w : Nat} (v : BitVec w) (n : Nat) :
    redxorLow v n = decide (popcountLow v n % 2 = 1) := by
  induction n with
  | zero => rfl
  | succ n ih =>
    rw [redxorLow, popcountLow, ih]
    cases v.getLsbD n with
    | false => simp
    | true =>
      have flip : (1 + popcountLow v n) % 2 = 1 ↔ ¬ popcountLow v n % 2 = 1 := by omega
      simp only [Bool.true_xor, Bool.toNat_true, flip, decide_not]

theorem redxor_eq_parity {w : Nat} (v : BitVec w) : redxor v = decide (popcount v % 2 = 1) :=
  redxorLow_eq_parity v w

/-- The widened value has the same bits, and the wires above the old width carry 0. -/
theorem redxor_setWidth {w n : Nat} (v : BitVec w) (h : w ≤ n) : redxor (v.setWidth n) = redxor v :=
  calc redxorLow (v.setWidth n) n
    _ = redxorLow v n := redxorLow_congr fun b hb => by simp [hb]
    _ = redxor v := redxorLow_of_le v h

/-! The answers of decoding. -/

theorem decodeInstr_eq_wrongWidth_iff {op : Op} {w : BusWord} :
    decodeInstr op w = .error .wrongWidth ↔ w.width ≠ op.width := by
  unfold decodeInstr
  split
  · next hw => exact iff_of_true rfl hw
  · next hw => split <;> simpa using hw

theorem decodeInstr_eq_tooWide_iff {op : Op} {w : BusWord} :
    decodeInstr op w = .error .tooWide ↔ w.width = op.width ∧ 2 ^ w.width ≤ w.value := by
  unfold decodeInstr
  split
  · next hw => simp [hw]
  · next hw =>
    split
    · next hv => exact iff_of_true rfl ⟨not_not.mp hw, hv⟩
    · next hv => simp [hv]

theorem exists_decodeInstr_iff {op : Op} {w : BusWord} :
    (∃ i, decodeInstr op w = .ok i) ↔ (Applied.mk op w).WellFormed :=
  ⟨fun ⟨_, h⟩ => (wellFormed_of_decodeInstr (a := ⟨op, w⟩) h).1, fun h => ⟨_, decodeInstr_of_wellFormed h⟩⟩

/-! The statements. -/

/-- Settles O32, by induction on the number of bits read; widening keeps every bit and adds zeros. -/
theorem redxorIsTheParityOfTheWeight : Obligations.RedxorIsTheParityOfTheWeight :=
  fun _ v => ⟨redxor_eq_parity v, fun _ h => redxor_setWidth v h⟩

/-- Settles O4, one equivalence for each of the three answers of decoding. -/
theorem onlyMisfitsAreRejected : Obligations.OnlyMisfitsAreRejected :=
  fun _ _ => ⟨decodeInstr_eq_wrongWidth_iff, decodeInstr_eq_tooWide_iff, exists_decodeInstr_iff⟩

end Sys2Proof.Machine
end

section
/-! PROOFS. The state: what every evaluation and every step keeps (rules R26, R36, R75), the values at power-up (R36,
R221), that one piece of the block has no memory (R20, R55), and the signals a user computes outside it (R31, R207). -/

namespace Sys2Proof.Machine

/-! What an evaluation leaves unchanged. -/

/-- No evaluation writes a constant (rules R26, R52). -/
theorem exec_tables {i : Instr} {s t : State} (h : exec i s = .next t) : t.tables = s.tables := by
  obtain ⟨d, rfl⟩ | ⟨c, rfl⟩ | ⟨a, rfl⟩ | ⟨c, e, rfl⟩ | ⟨cc, rfl⟩ := exec_cases h <;> simp

/-- No evaluation touches the outside's list (log entry 2). -/
theorem exec_applied {i : Instr} {s t : State} (h : exec i s = .next t) : t.applied = s.applied := by
  obtain ⟨d, rfl⟩ | ⟨c, rfl⟩ | ⟨a, rfl⟩ | ⟨c, e, rfl⟩ | ⟨cc, rfl⟩ := exec_cases h <;> simp

/-- No step writes a constant (rules R26, R52). -/
theorem step_tables {s t : State} (h : step s = .next t) : t.tables = s.tables := by
  obtain ⟨-, rfl⟩ | ⟨a, rest, -, -, hexec⟩ := step_cases h
  · rfl
  · exact (exec_tables hexec :)

/-- The same tables have the same entries. -/
theorem tables_and_entries_eq {s t : State} (h : t.tables = s.tables) :
    t.tables = s.tables ∧ ∀ a, eplook t.tables.LUT a = eplook s.tables.LUT a :=
  ⟨h, fun _ => by rw [h]⟩

/-! The invariant. -/

theorem exec_keeps_settled {i : Instr} {s t : State} (hs : s.Settled) (h : exec i s = .next t) : t.Settled := by
  obtain ⟨d, rfl⟩ | ⟨c, rfl⟩ | ⟨a, rfl⟩ | ⟨c, e, rfl⟩ | ⟨cc, rfl⟩ := exec_cases h
  · exact settled_driveEncData hs d
  · exact settled_driveDecCodeword hs c
  · exact settled_driveRom hs a
  · exact settled_driveCorrector hs c e
  · exact settled_driveExtractor hs cc

/-- What waits to be applied drives no wire. -/
theorem settled_of_applied {s : State} (hs : s.Settled) (waiting : List Applied) :
    { s with applied := waiting }.Settled :=
  { hs with }

theorem step_keeps_inv {s t : State} (hs : s.Inv) (h : step s = .next t) : t.Inv := by
  obtain ⟨-, rfl⟩ | ⟨a, rest, happ, -, hexec⟩ := step_cases h
  · exact hs
  · have fits : ∀ b ∈ rest, b.WellFormed := fun b hb =>
      hs.inputsFit b (happ ▸ List.mem_cons_of_mem a hb)
    exact ⟨exec_keeps_settled (settled_of_applied hs.settled rest) hexec, exec_applied hexec ▸ fits⟩

/-- At power-up every output was given as the function of its inputs (rule R36). -/
theorem reset_settled : State.reset.Settled :=
  ⟨rfl, rfl, rfl, rfl, rfl, rfl, rfl, rfl, rfl⟩

theorem reset_applied : State.reset.applied = [] := rfl

theorem reset_inv : State.reset.Inv :=
  ⟨reset_settled, by simp [reset_applied]⟩

/-! The units at the input 0 (corner cases of rules R90, R91, R110, R152). -/

@[simp] theorem pargen_zero (P : Vector Byte 8) : pargen P 0#8 = 0#8 := by
  simp [pargen]

@[simp] theorem encodeByte_zero (P : Vector Byte 8) : encodeByte P 0#8 = 0#16 :=
  codeword_ext (by simp) (by simp)

@[simp] theorem synd_zero (H : Vector Word 8) : synd H 0#16 = 0#8 := by
  simp [synd]

theorem encodePorts_of_zero (P : Vector Byte 8) : EncodePorts.of P 0 = ⟨0, 0, 0⟩ := by
  simp [EncodePorts.of]

theorem decodePorts_of_zero (H : Vector Word 8) (LUT : Vector Word 256) :
    DecodePorts.of H LUT 0 = ⟨0, 0, eplook LUT 0, eplook LUT 0, dataByte (eplook LUT 0)⟩ := by
  simp [decodePorts_of_eq]

/-! One piece of the block: what an operation drives there, and that a later drive hides an earlier one. -/

/-- `f` drives a value onto the input of a piece, and the piece's outputs follow (rules R71, R75). -/
inductive Part.Drives : Part → (State → State) → Prop where
  | encData (d : Byte) : Drives .encodePath fun s => s.driveEncData d
  | decCodeword (c : Word) : Drives .decodePath fun s => s.driveDecCodeword c
  | rom (a : Byte) : Drives .lookup fun s => s.driveRom a
  | corrector (c e : Word) : Drives .corrector fun s => s.driveCorrector c e
  | extractor (cc : Word) : Drives .extractor fun s => s.driveExtractor cc

/-- An operation drives its own piece, and completes. -/
theorem exec_drives (i : Instr) : ∃ f, (Part.of i).Drives f ∧ ∀ s, exec i s = .next (f s) := by
  cases i with
  | pargen d => exact ⟨_, .encData d, exec_pargen d⟩
  | encode d => exact ⟨_, .encData d, exec_encode d⟩
  | synd c => exact ⟨_, .decCodeword c, exec_synd c⟩
  | eplook a => exact ⟨_, .rom a, exec_eplook a⟩
  | corr c e => exact ⟨_, .corrector c e, exec_corr c e⟩
  | extract cc => exact ⟨_, .extractor cc, exec_extract cc⟩
  | decode c => exact ⟨_, .decCodeword c, exec_decode c⟩

/-- A drive overwrites every wire of its piece and reads none, so an earlier drive of the piece is lost (rule R20). -/
theorem Part.Drives.absorb {p : Part} {f g : State → State} : p.Drives f → p.Drives g → ∀ s, g (f s) = g s
  | .encData _, .encData _, _ => rfl
  | .decCodeword _, .decCodeword _, _ => rfl
  | .rom _, .rom _, _ => rfl
  | .corrector _ _, .corrector _ _, _ => rfl
  | .extractor _, .extractor _, _ => rfl

/-- After an operation, another of the same piece gives what it would have given before. -/
theorem exec_after_same_part {i j : Instr} {s t : State} (hp : Part.of i = Part.of j) (h : exec i s = .next t) :
    exec j t = exec j s := by
  obtain ⟨f, hf, exec_i⟩ := exec_drives i
  obtain ⟨g, hg, exec_j⟩ := exec_drives j
  obtain rfl : f s = t := by simpa [exec_i] using h
  rw [← hp] at hg
  rw [exec_j, exec_j, hf.absorb hg]

/-- A script of two evaluations whose first completes. -/
theorem runScript_pair {i : Instr} (j : Instr) {s t : State} (h : exec i s = .next t) :
    runScript [i, j] s = exec j t := by
  obtain ⟨g, -, exec_j⟩ := exec_drives j
  simp [runScript, h, exec_j]

/-! Validity under `WF_H`, and the outer signals. -/

/-- Under `WF_H` row `i` of the syndrome is bit `7-i` of the received parity byte against parity index `i` (rule R111). -/
theorem synd_eq_parityDifference {T : Tables} (h : WF_H T) (c : Word) :
    synd T.H c = parityByte c ^^^ pargen T.P (dataByte c) :=
  byte_ext_rows fun i =>
    calc (synd T.H c).getLsbD (7 - i.val)
      _ = redxor (joinCodeword (identityRow i) T.P[i] &&& joinCodeword (parityByte c) (dataByte c)) := by
        rw [synd_getLsbD, h i, join_bytes]
      _ = ((parityByte c).getLsbD (7 - i.val) ^^ redxor (T.P[i] &&& dataByte c)) := by
        rw [redxor_and_join, parityByte_join, dataByte_join, redxor_identityRow]
      _ = (parityByte c ^^^ pargen T.P (dataByte c)).getLsbD (7 - i.val) := by
        rw [BitVec.getLsbD_xor, pargen_getLsbD]

/-- Under `WF_H` the zero-syndrome words are the valid ones (rule R173). -/
theorem synd_eq_zero_iff_valid {T : Tables} (h : WF_H T) (c : Word) : synd T.H c = 0#8 ↔ Valid T.P c := by
  rw [synd_eq_parityDifference h, BitVec.xor_eq_zero_iff]

theorem outerErrorSeen_iff {x : Byte} : outerErrorSeen x = true ↔ x ≠ 0 := by
  simp [outerErrorSeen]

theorem outerDeclined_iff {x : Byte} {e : Word} : outerDeclined x e = true ↔ e = 0 ∧ x ≠ 0 := by
  simp [outerDeclined]

/-! The statements. -/

/-- Settles O22: a step changes nothing, or takes a fitting word and drives one input. -/
theorem stepKeepsTheWiresSettled : Obligations.StepKeepsTheWiresSettled :=
  fun _ _ => step_keeps_inv

/-- Settles O20: no evaluation writes a table, so no step does. -/
theorem constantsAreNeverWritten : Obligations.ConstantsAreNeverWritten :=
  ⟨fun _ _ _ h => tables_and_entries_eq (exec_tables h), fun _ _ h => tables_and_entries_eq (step_tables h)⟩

/-- Settles O52: the syndrome is zero exactly on valid words (R173), and a zero pattern passes the word through (R155). -/
theorem outerSignalsFromTheOutputs : Obligations.OuterSignalsFromTheOutputs := by
  intro c s hH
  have seen : synd s.tables.H c ≠ 0 ↔ ¬ Valid s.tables.P c := not_congr (synd_eq_zero_iff_valid hH c)
  refine ⟨_, exec_decode c s, ?_⟩
  simp only [driveDecCodeword_dec, decodePorts_of_eq]
  refine ⟨outerErrorSeen_iff.trans seen, outerDeclined_iff, fun declined => ?_⟩
  obtain ⟨zero_pattern, nonzero_synd⟩ := outerDeclined_iff.mp declined
  have passed : c ^^^ eplook s.tables.LUT (synd s.tables.H c) = c := by simp [zero_pattern]
  exact ⟨passed, by simpa only [passed] using seen.mp nonzero_synd⟩

/-- Settles O7: one equation of the step for the empty list, one for a word that decoding rejects. -/
theorem stepWithoutAnOperation : Obligations.StepWithoutAnOperation :=
  ⟨fun _ => step_nil, fun _ _ _ happ => ⟨step_error happ, step_error happ⟩⟩

/-- Settles O23: reset gives each output its function's value. -/
theorem resetIsSettled : Obligations.ResetIsSettled :=
  ⟨reset_inv, reset_applied⟩

/-- Settles O25, by the values of the units at the input 0. -/
theorem resetValues : Obligations.ResetValues :=
  ⟨rfl, reset_applied, encodePorts_of_zero _, decodePorts_of_zero _ _, rfl, rfl, rfl⟩

/-- Settles O27: a drive of a piece hides the drive before it. -/
theorem earlierInputsLeaveNoTrace : Obligations.EarlierInputsLeaveNoTrace := by
  refine ⟨fun i s t h => (exec_after_same_part rfl h).trans h, fun i j s hp => ?_⟩
  obtain ⟨f, -, exec_i⟩ := exec_drives i
  exact (runScript_pair j (exec_i s)).trans (exec_after_same_part hp (exec_i s))

end Sys2Proof.Machine
end

section
/-! PROOFS. The memory of the block: the table that no run writes (rules R52, R58), the sixteen entries that the premises fix
(rule R56), and which ports an evaluation leaves alone (rules R51, R63, R75). -/

namespace Sys2Proof.Machine

/-! The constants along a run. -/

/-- No run writes a constant (rules R26, R52). -/
theorem run_tables {k : Nat} {s t : State} (h : Host.Core.run core k s = .next t) : t.tables = s.tables := by
  induction k generalizing s with
  | zero => cases h; rfl
  | succ k ih =>
    obtain ⟨u, hstep, hrun⟩ := run_succ_cases h
    exact (ih hrun).trans (step_tables hstep)

/-! The single-bit values and their syndromes. -/

/-- A parity position's bit stands in the high byte alone (rule R28). -/
theorem bytes_oneBit_parity {p : Fin 16} (hp : 8 ≤ p.val) :
    parityByte (oneBit 16 p) = oneBit 8 (p - 8) ∧ dataByte (oneBit 16 p) = 0#8 := by
  revert p; decide

/-- A data position's bit stands in the low byte alone (rule R28). -/
theorem bytes_oneBit_data (p : Fin 8) :
    parityByte (oneBit 16 p) = 0#8 ∧ dataByte (oneBit 16 p) = oneBit 8 p := by
  revert p; decide

/-- Under `WF_H` a flipped parity bit differs from the recomputed parity at itself alone (rule R112). -/
theorem synd_oneBit_parity {T : Tables} (h : WF_H T) {p : Fin 16} (hp : 8 ≤ p.val) :
    synd T.H (oneBit 16 p) = oneBit 8 (p - 8) := by
  obtain ⟨high, low⟩ := bytes_oneBit_parity hp
  rw [synd_eq_parityDifference h, high, low, pargen_zero, BitVec.xor_zero]

/-- Under `WF_H` the syndrome of a data bit is that bit's column of `P`, as PARGEN gives it (rule R112). -/
theorem synd_oneBit_data {T : Tables} (h : WF_H T) (p : Fin 8) :
    synd T.H (oneBit 16 p) = pargen T.P (oneBit 8 p) := by
  obtain ⟨high, low⟩ := bytes_oneBit_data p
  rw [synd_eq_parityDifference h, high, low, BitVec.zero_xor]

/-- Under `SEC_P` no other single bit shares a single bit's syndrome, so `WF_LUT_SB` fixes its entry (rules R25, R179). -/
theorem eplook_oneBitSynd {T : Tables} (hsec : SEC_P T) (hlut : WF_LUT_SB T) (p : Fin 16) :
    eplook T.LUT (oneBitSynd T.H p) = oneBit 16 p :=
  hlut p fun q hq => hsec.2 q p hq

/-! Drives of different pieces. -/

/-- A drive writes its own piece's wires and reads the constants only, so drives of two pieces commute (rule R63). -/
theorem Part.Drives.comm {p q : Part} {f g : State → State} (hf : p.Drives f) (hg : q.Drives g) (hne : p ≠ q)
    (s : State) : g (f s) = f (g s) := by
  cases hf <;> cases hg
  case encData.encData | decCodeword.decCodeword | rom.rom | corrector.corrector | extractor.extractor =>
    exact absurd rfl hne
  all_goals rfl

/-! The statements. -/

/-- Settles O21: EPLOOK reads the table after the run, which is the table before it. -/
theorem lookupIsTheSameAtEveryTime : Obligations.LookupIsTheSameAtEveryTime := by
  intro k s t a hrun
  refine ⟨t.driveRom a, exec_eplook a t, ?_⟩
  rw [driveRom_rom, RomPins.of, run_tables hrun]

/-- Settles O50: under `WF_H` the addresses named are the single-bit syndromes, whose entries `WF_LUT_SB` fixes and which
`SEC_P` keeps apart. -/
theorem fixedTableEntries : Obligations.FixedTableEntries := by
  intro T hH hsec hlut
  have parity_synd : ∀ p : Fin 16, 8 ≤ p.val → oneBitSynd T.H p = oneBit 8 (p - 8) :=
    fun _ hp => synd_oneBit_parity hH hp
  have data_synd : ∀ p : Fin 8, oneBitSynd T.H (p.castAdd 8) = pargen T.P (oneBit 8 p) := synd_oneBit_data hH
  refine ⟨fun p hp => ?_, fun p => ?_, fun b => ⟨?_, fun b' => ?_⟩⟩
  · rw [← parity_synd p hp, eplook_oneBitSynd hsec hlut]
  · rw [← data_synd p, eplook_oneBitSynd hsec hlut, Fin.val_castAdd]
  · rw [← data_synd b]
    exact hsec.1 _
  · have column : oneBitSynd T.H (b'.natAdd 8) = oneBit 8 b' := by
      rw [parity_synd _ (by simp), Fin.val_natAdd, Nat.add_sub_cancel_left]
    have apart : b.castAdd 8 ≠ b'.natAdd 8 := by
      simp only [ne_eq, Fin.ext_iff, Fin.val_castAdd, Fin.val_natAdd]
      omega
    rw [← data_synd b, ← column]
    exact hsec.2 _ _ apart

/-- Settles O16: both operations drive `enc_data`. -/
theorem encodeOperationsFrame : Obligations.EncodeOperationsFrame := by
  intro d s t h
  obtain rfl : s.driveEncData d = t := by simpa using h
  simp

/-- Settles O18: each of the three drives its own lone unit. -/
theorem loneUnitOperationsFrame : Obligations.LoneUnitOperationsFrame := by
  refine ⟨fun a s t h => ?_, fun c e s t h => ?_, fun cc s t h => ?_⟩
  · obtain rfl : s.driveRom a = t := by simpa using h
    simp
  · obtain rfl : s.driveCorrector c e = t := by simpa using h
    simp
  · obtain rfl : s.driveExtractor cc = t := by simpa using h
    simp

/-- Settles O26: each script answers the state with both drives done, and the drives commute. -/
theorem piecesDoNotInteract : Obligations.PiecesDoNotInteract := by
  intro i j s hne
  obtain ⟨f, hf, exec_i⟩ := exec_drives i
  obtain ⟨g, hg, exec_j⟩ := exec_drives j
  refine ⟨g (f s), (runScript_pair j (exec_i s)).trans (exec_j (f s)), ?_⟩
  rw [runScript_pair i (exec_j s), exec_i, hf.comm hg hne]

end Sys2Proof.Machine
end

section
/-! PROOFS. The input words: an operation and its place and word determine each other (rules R70, R79, R80), every value of
an input is legal (rule R78), a placed word is what the next step evaluates (log entries 2 and 9), and the decode operations
and the two composites (rules R75, R80). -/

namespace Sys2Proof.Machine

/-! The operands of a word, and the word of the operands. -/

@[simp] theorem operands_op (op : Op) (v : Nat) : (operands op v).op = op := by
  cases op <;> rfl

/-- A number of the input's width is laid out again as it was read: no bit of it is dropped (rules R70, R77). -/
theorem inputValue_operands {op : Op} {v : Nat} (h : v < 2 ^ op.width) : inputValue (operands op v) = v := by
  cases op
  case corr =>
    have width32 : v < 2 ^ 32 := h
    simp only [operands, inputValue, BitVec.toNat_ofNat]
    omega
  all_goals exact Nat.mod_eq_of_lt h

/-- The operands are read back from the number they are laid out as; CORR's two stand apart at bit 16 (rule R71). -/
theorem operands_inputValue (i : Instr) : operands i.op (inputValue i) = i := by
  cases i
  case corr c e =>
    have high : BitVec.ofNat 16 ((c.toNat * 2 ^ 16 + e.toNat) / 2 ^ 16) = c := by
      apply BitVec.eq_of_toNat_eq
      have := c.isLt
      have := e.isLt
      rw [BitVec.toNat_ofNat]
      omega
    have low : BitVec.ofNat 16 (c.toNat * 2 ^ 16 + e.toNat) = e := by
      apply BitVec.eq_of_toNat_eq
      have := e.isLt
      rw [BitVec.toNat_ofNat]
      omega
    exact congrArg₂ Instr.corr high low
  all_goals simp [operands, inputValue, Instr.op]

/-- The word that an encoder lays out fits its port (rules R71, R79). -/
theorem encodeInstr_wellFormed : ∀ i : Instr, (encodeInstr i).WellFormed
  | .pargen d => Laws.EncodedWordFits.pargen d
  | .encode d => Laws.EncodedWordFits.encode d
  | .synd c => Laws.EncodedWordFits.synd c
  | .eplook a => Laws.EncodedWordFits.eplook a
  | .corr c e => Laws.EncodedWordFits.corr c e
  | .extract cc => Laws.EncodedWordFits.extract cc
  | .decode c => Laws.EncodedWordFits.decode c

/-! A word known by its length only. -/

theorem decodeTableWord_eq_some_iff {nbits w : Nat} {i : Instr} :
    decodeTableWord nbits w = some i ↔
      decodeInstr (tableApplied nbits w).op (tableApplied nbits w).word = .ok i := by
  unfold decodeTableWord
  split
  · next hd => simp [hd]
  · next hd => simp [hd]

/-- The number is cut to the wires there are, so only the length can be wrong. -/
theorem tableApplied_wellFormed_iff {nbits w : Nat} :
    (tableApplied nbits w).WellFormed ↔ nbits = (opOfLength nbits).width :=
  and_iff_left (Nat.mod_lt w (Nat.two_pow_pos nbits))

/-- The lengths that stand for an operation of their own width (log entry 9). -/
theorem eq_opOfLength_width_iff {nbits : Nat} :
    nbits = (opOfLength nbits).width ↔ nbits = 8 ∨ nbits = 16 ∨ nbits = 32 := by
  unfold opOfLength
  split
  · next h16 => simp [h16, Op.width]
  · next h16 =>
    split
    · next h32 => simp [h32, Op.width]
    · next h32 => simp [h16, h32, Op.width]

theorem decodeTableWord_eq_none_iff {nbits w : Nat} :
    decodeTableWord nbits w = none ↔ nbits ≠ 8 ∧ nbits ≠ 16 ∧ nbits ≠ 32 :=
  calc decodeTableWord nbits w = none
    _ ↔ ¬ ∃ i, decodeTableWord nbits w = some i := by simp [Option.eq_none_iff_forall_ne_some]
    _ ↔ ¬ (tableApplied nbits w).WellFormed := by
      simp only [decodeTableWord_eq_some_iff, exists_decodeInstr_iff]
    _ ↔ ¬ (nbits = 8 ∨ nbits = 16 ∨ nbits = 32) := by
      rw [tableApplied_wellFormed_iff, eq_opOfLength_width_iff]
    _ ↔ nbits ≠ 8 ∧ nbits ≠ 16 ∧ nbits ≠ 32 := by simp only [not_or]

/-- A step from a state with a word put first evaluates that word in the state it was put into (log entry 2). -/
theorem step_applyNext {s : State} {a : Applied} {i : Instr} (hd : decodeInstr a.op a.word = .ok i) :
    step (s.applyNext a) = exec i s :=
  step_ok (applyNext_applied s a) hd

/-! The statements. -/

/-- Settles O1: the laid out word fits its port, and its number is read back as the operands. -/
theorem decodeOfEncode : Obligations.DecodeOfEncode := fun i =>
  calc decodeInstr (encodeInstr i).op (encodeInstr i).word
    _ = .ok (operands i.op (inputValue i)) := decodeInstr_of_wellFormed (encodeInstr_wellFormed i)
    _ = .ok i := by rw [operands_inputValue]

/-- Settles O2: a word that decodes fits its port, so its operands are laid out as its number. -/
theorem encodeOfDecode : Obligations.EncodeOfDecode := by
  intro op w i hd
  obtain ⟨⟨hwidth, hfits⟩, rfl⟩ := wellFormed_of_decodeInstr (a := ⟨op, w⟩) hd
  obtain ⟨width, value⟩ := w
  obtain rfl : width = op.width := hwidth
  rw [encodeInstr, operands_op, inputValue_operands hfits]

/-- Settles O3: a fitting value decodes to an operation of its place, and every operation completes. -/
theorem everyInputValueIsLegal : Obligations.EveryInputValueIsLegal := by
  intro op v hv
  refine ⟨operands op v, decodeInstr_of_wellFormed (a := ⟨op, op.width, v⟩) ⟨rfl, hv⟩, operands_op op v, fun s => ?_⟩
  obtain ⟨f, -, completes⟩ := exec_drives (operands op v)
  exact ⟨f s, completes s⟩

/-- Settles O8: the placed word is the head of the list, and it fits a port exactly at the three lengths. -/
theorem placedWordIsEvaluatedNext : Obligations.PlacedWordIsEvaluatedNext :=
  fun _ _ _ => ⟨fun _ h => step_applyNext (decodeTableWord_eq_some_iff.mp h), decodeTableWord_eq_none_iff⟩

/-- Settles O5: each word written out is the encoding of its operation, so it is read back as that operation. -/
theorem inputWordsOfTheSpecsPrograms : Obligations.InputWordsOfTheSpecsPrograms :=
  ⟨decodeOfEncode (.encode 0x3C), decodeOfEncode (.pargen 0xAA), decodeOfEncode (.synd 0x86AA),
    decodeOfEncode (.eplook 0x20), decodeOfEncode (.corr 0x86AA 0x2000), decodeOfEncode (.extract 0xA6AA),
    decodeOfEncode (.decode 0xC93C)⟩

/-- Settles O6: the step's equation for a word that decodes. -/
theorem stepRunsTheDecodedOperation : Obligations.StepRunsTheDecodedOperation :=
  fun _ _ _ _ => step_ok

/-- Settles O17: both operations drive `dec_codeword`. -/
theorem decodeOperationsFrame : Obligations.DecodeOperationsFrame := by
  intro c s t h
  obtain rfl : s.driveDecCodeword c = t := by simpa using h
  simp

/-- Settles O31: the codeword is built from PARGEN's byte, and the lone units, driven one after the other with the constants
unchanged, compute the decode path's four values. -/
theorem compositesAreTheirExpansions : Obligations.CompositesAreTheirExpansions := by
  refine ⟨fun d s => ⟨_, _, exec_pargen d s, exec_encode d s, rfl⟩, fun c s => ?_⟩
  exact ⟨_, _, _, _, _, exec_synd c s, exec_eplook _ _, exec_corr c _ _, exec_extract _ _, exec_decode c s,
    rfl, rfl, rfl, rfl⟩

end Sys2Proof.Machine
end

section
/-! PROOFS. The encode path: the parity byte and the codeword bit by bit (rules R90, R91), the two pseudocode forms of a
parity bit (rule R92), linearity (rule R94), and what the encode ports are a function of (rule R95). -/

namespace Sys2Proof.Machine

/-! The source's loop and the reduction. -/

/-- Taken upwards from bit 0, the exclusive-or of the bits below `n` is the reduction of `n` bits. -/
theorem foldl_xor_bits_range {w : Nat} (v : BitVec w) (n : Nat) :
    (List.range n).foldl (fun par b => par ^^ v.getLsbD b) false = redxorLow v n := by
  induction n with
  | zero => rfl
  | succ n ih => rw [List.range_succ, List.foldl_concat, ih, redxorLow, Bool.xor_comm]

/-- Exclusive-or is associative and commutative, so the bits may be taken in any order (rule R92). -/
theorem foldl_xor_bits_eq_redxor {w : Nat} (v : BitVec w) {bits : List Nat} (h : bits.Perm (List.range w)) :
    bits.foldl (fun par b => par ^^ v.getLsbD b) false = redxor v :=
  calc bits.foldl (fun par b => par ^^ v.getLsbD b) false
    _ = (List.range w).foldl (fun par b => par ^^ v.getLsbD b) false :=
      h.foldl_eq' (fun _ _ _ _ _ => Bool.xor_right_comm ..) false
    _ = redxor v := foldl_xor_bits_range v w

/-- The source's products in any order of the positions: as `j` runs over 0..7 the bit number `7-j` runs over the eight
bits of `P[i] & d` (rule R92). -/
theorem foldl_products_of_perm (P : Vector Byte 8) (d : Byte) (i : Fin 8) {order : List Nat}
    (h : order.Perm (List.range 8)) :
    order.foldl (fun par j => par ^^ (d.getLsbD (7 - j) && P[i].getLsbD (7 - j))) false =
      redxor (P[i] &&& d) := by
  have all_bits : (order.map (7 - ·)).Perm (List.range 8) := (h.map _).trans (by decide)
  calc order.foldl (fun par j => par ^^ (d.getLsbD (7 - j) && P[i].getLsbD (7 - j))) false
    _ = (order.map (7 - ·)).foldl (fun par b => par ^^ (P[i] &&& d).getLsbD b) false := by
      simp only [List.foldl_map, BitVec.getLsbD_and, Bool.and_comm]
    _ = redxor (P[i] &&& d) := foldl_xor_bits_eq_redxor (P[i] &&& d) all_bits

/-- The source's loop computes the mask-and-reduce form (rule R92). -/
theorem parityLoop_eq_redxor (P : Vector Byte 8) (d : Byte) (i : Fin 8) :
    parityLoop P d i = redxor (P[i] &&& d) :=
  foldl_products_of_perm P d i (List.Perm.refl _)

/-! PARGEN's corner cases (rule R90). -/

/-- An all-ones byte: the parity of the weight of the row. -/
theorem pargen_allOnes_getLsbD (P : Vector Byte 8) (i : Fin 8) :
    (pargen P (BitVec.allOnes 8)).getLsbD (7 - i) = redxor P[i] := by
  rw [pargen_getLsbD, BitVec.and_allOnes]

/-- A zero row: its parity index is constantly 0. -/
theorem pargen_getLsbD_of_row_zero {P : Vector Byte 8} (d : Byte) {i : Fin 8} (h : P[i] = 0#8) :
    (pargen P d).getLsbD (7 - i) = false := by
  rw [pargen_getLsbD, h, BitVec.zero_and, redxor_zero]

/-- One data bit: a column of `P`. -/
theorem pargen_oneBit_getLsbD (P : Vector Byte 8) (b i : Fin 8) :
    (pargen P (oneBit 8 b)).getLsbD (7 - i) = P[i].getLsbD b := by
  rw [pargen_getLsbD, redxor_and_oneBit _ b.isLt]

/-! The codeword (rule R91). -/

/-- Parity index `i` stands at bit `15-i`. -/
theorem encodeByte_getLsbD_parity (P : Vector Byte 8) (d : Byte) (i : Fin 8) :
    (encodeByte P d).getLsbD (15 - i) = redxor (P[i] &&& d) := by
  have position : 15 - i.val = 8 + (7 - i.val) := by omega
  rw [position, ← parityByte_getLsbD _ (by omega), parityByte_encode, pargen_getLsbD]

/-- The data byte stands unchanged in the low byte. -/
theorem encodeByte_getLsbD_data (P : Vector Byte 8) (d : Byte) (b : Fin 8) :
    (encodeByte P d).getLsbD b = d.getLsbD b := by
  rw [← dataByte_getLsbD _ b.isLt, dataByte_encode]

/-- The code is systematic, so the byte is read back from its codeword. -/
theorem encodeByte_injective (P : Vector Byte 8) : Function.Injective (encodeByte P) :=
  Function.LeftInverse.injective (dataByte_encode P)

theorem ncard_range_encodeByte (P : Vector Byte 8) : (Set.range (encodeByte P)).ncard = 256 := by
  rw [Set.ncard_range_of_injective (encodeByte_injective P), Nat.card_congr BitVec.equivFin.toEquiv, Nat.card_fin]
  rfl

/-! Linearity (rules R94, R170). -/

theorem and_xor_distrib {w : Nat} (m x y : BitVec w) : m &&& (x ^^^ y) = m &&& x ^^^ m &&& y := by
  apply BitVec.eq_of_getLsbD_eq
  intro k _
  simp only [BitVec.getLsbD_and, BitVec.getLsbD_xor, Bool.and_xor_distrib_left]

/-- AND distributes over exclusive-or bit by bit, and the reduction adds up. -/
theorem pargen_xor (P : Vector Byte 8) (a b : Byte) : pargen P (a ^^^ b) = pargen P a ^^^ pargen P b :=
  byte_ext_rows fun i =>
    calc (pargen P (a ^^^ b)).getLsbD (7 - i.val)
      _ = redxor (P[i] &&& a ^^^ P[i] &&& b) := by rw [pargen_getLsbD, and_xor_distrib]
      _ = (pargen P a ^^^ pargen P b).getLsbD (7 - i.val) := by
        rw [redxor_xor, BitVec.getLsbD_xor, pargen_getLsbD, pargen_getLsbD]

theorem encodeByte_xor (P : Vector Byte 8) (a b : Byte) :
    encodeByte P (a ^^^ b) = encodeByte P a ^^^ encodeByte P b :=
  codeword_ext (by simp [pargen_xor]) (by simp)

/-- Parity index `i` of the sum over the set bits below `n` is the reduction of the first `n` products. -/
theorem foldl_pargen_oneBit_getLsbD (P : Vector Byte 8) (a : Byte) (i : Fin 8) {n : Nat} (hn : n ≤ 8) :
    ((List.range n).foldl (fun acc k => acc ^^^ if a.getLsbD k then pargen P (oneBit 8 k) else 0) 0).getLsbD
        (7 - i) = redxorLow (P[i] &&& a) n := by
  induction n with
  | zero => simp [redxorLow]
  | succ n ih =>
    have product : (if a.getLsbD n then pargen P (oneBit 8 n) else 0).getLsbD (7 - i) =
        (P[i] &&& a).getLsbD n := by
      have column := pargen_oneBit_getLsbD P ⟨n, hn⟩ i
      split
      · next hset => rw [column, BitVec.getLsbD_and, hset, Bool.and_true]
      · next hclear => simp [hclear]
    rw [List.range_succ, List.foldl_concat, BitVec.getLsbD_xor, ih (Nat.le_of_succ_le hn), product, redxorLow,
      Bool.xor_comm]

/-- PARGEN of a byte is the exclusive-or of PARGEN of its set bits (rule R94). -/
theorem pargen_eq_foldl_oneBit (P : Vector Byte 8) (a : Byte) :
    pargen P a =
      (List.range 8).foldl (fun acc k => acc ^^^ if a.getLsbD k then pargen P (oneBit 8 k) else 0) 0 :=
  byte_ext_rows fun i => by rw [pargen_getLsbD, foldl_pargen_oneBit_getLsbD P a i le_rfl, redxor]

/-! The encode ports as a function (rule R95). -/

/-- Driving `enc_data` reads `P` and no other constant, and no earlier value. -/
theorem driveEncData_enc_congr {s s' : State} (h : s.tables.P = s'.tables.P) (d : Byte) :
    (s.driveEncData d).enc = (s'.driveEncData d).enc := by
  rw [driveEncData_enc, driveEncData_enc, h]

/-! The statements. -/

/-- Settles O9: the byte is driven onto `enc_data`, and `enc_parity` is PARGEN of it bit by bit. -/
theorem pargenGivesTheParityByte : Obligations.PargenGivesTheParityByte := by
  intro d s
  refine ⟨s.driveEncData d, exec_pargen d s, rfl, rfl, ?zero_byte,
    fun i => ⟨pargen_getLsbD _ d i, ?loop, ?all_ones, ?zero_row, ?one_bit⟩⟩
  case zero_byte => rintro rfl; exact pargen_zero _
  case loop => exact (pargen_getLsbD _ d i).trans (parityLoop_eq_redxor _ d i).symm
  case all_ones => rintro rfl; exact pargen_allOnes_getLsbD _ i
  case zero_row => exact pargen_getLsbD_of_row_zero d
  case one_bit => rintro b rfl; exact pargen_oneBit_getLsbD _ b i

/-- Settles O10: the codeword is the joined bytes; the data byte, read back from it, makes the encoding injective. -/
theorem encodeGivesTheCodeword : Obligations.EncodeGivesTheCodeword := by
  refine ⟨fun d s => ⟨s.driveEncData d, exec_encode d s, rfl, rfl, rfl, ?zero_byte, rfl,
    encodeByte_getLsbD_parity _ d, encodeByte_getLsbD_data _ d⟩,
    fun P => ⟨encodeByte_injective P, ncard_range_encodeByte P⟩⟩
  rintro rfl
  exact encodeByte_zero _

/-- Settles O33: the products in any order are the bits of `P[i] & d` in some order. -/
theorem parityFormsAgree : Obligations.ParityFormsAgree :=
  fun P d i _ h => foldl_products_of_perm P d i h

/-- Settles O34, by the linearity of the reduction row by row, and by induction on the number of bits summed. -/
theorem encodeIsLinear : Obligations.EncodeIsLinear :=
  fun P a b => ⟨pargen_xor P a b, encodeByte_xor P a b, pargen_eq_foldl_oneBit P a⟩

/-- Settles O28: both operations drive `enc_data`, whose ports are a function of `P` and the byte. -/
theorem encodeReadsOnlyP : Obligations.EncodeReadsOnlyP :=
  fun d s s' h =>
    ⟨⟨_, _, exec_pargen d s, exec_pargen d s', driveEncData_enc_congr h d⟩,
      _, _, exec_encode d s, exec_encode d s', driveEncData_enc_congr h d⟩

end Sys2Proof.Machine
end

section
/-! PROOFS. The syndrome calculator: the syndrome row by row (rule R110), as a parity difference (rule R111), of the sixteen
single-bit values (rule R112), and what it is a function of (rule R114). -/

namespace Sys2Proof.Machine

/-! SYND's corner cases (rule R110). -/

/-- An all-ones word: the parity of the weight of the row. -/
theorem synd_allOnes_getLsbD (H : Vector Word 8) (i : Fin 8) :
    (synd H (BitVec.allOnes 16)).getLsbD (7 - i) = redxor H[i] := by
  rw [synd_getLsbD, BitVec.and_allOnes]

/-- A zero row: its syndrome bit is constantly 0. -/
theorem synd_getLsbD_of_row_zero {H : Vector Word 8} (c : Word) {i : Fin 8} (h : H[i] = 0#16) :
    (synd H c).getLsbD (7 - i) = false := by
  rw [synd_getLsbD, h, BitVec.zero_and, redxor_zero]

/-- One codeword bit: a column of `H`. -/
theorem synd_oneBit_getLsbD (H : Vector Word 8) (b : Fin 16) (i : Fin 8) :
    (synd H (oneBit 16 b)).getLsbD (7 - i) = H[i].getLsbD b := by
  rw [synd_getLsbD, redxor_and_oneBit _ b.isLt]

/-! An error in an encoder output. -/

/-- SYND is linear for every `H`: AND distributes over exclusive-or, and the reduction adds up (rule R171). -/
theorem synd_xor (H : Vector Word 8) (x y : Word) : synd H (x ^^^ y) = synd H x ^^^ synd H y :=
  byte_ext_rows fun i =>
    calc (synd H (x ^^^ y)).getLsbD (7 - i.val)
      _ = redxor (H[i] &&& x ^^^ H[i] &&& y) := by rw [synd_getLsbD, and_xor_distrib]
      _ = (synd H x ^^^ synd H y).getLsbD (7 - i.val) := by
        rw [redxor_xor, BitVec.getLsbD_xor, synd_getLsbD, synd_getLsbD]

/-- Under `WF_H` an encoder output has syndrome zero: its parity byte is the recomputed one (rule R172). -/
theorem synd_encodeByte {T : Tables} (h : WF_H T) (d : Byte) : synd T.H (encodeByte T.P d) = 0#8 := by
  rw [synd_eq_parityDifference h, parityByte_encode, dataByte_encode, BitVec.xor_self]

/-- Under `WF_H` the syndrome of a corrupted encoder output is that of the error alone (rule R112). -/
theorem synd_encodeByte_xor {T : Tables} (h : WF_H T) (d : Byte) (x : Word) :
    synd T.H (encodeByte T.P d ^^^ x) = synd T.H x := by
  rw [synd_xor, synd_encodeByte h, BitVec.zero_xor]

/-! The statements. -/

/-- Settles O11: the word is driven onto `dec_codeword`, and `dec_syndrome` is SYND of it bit by bit. -/
theorem syndGivesTheSyndrome : Obligations.SyndGivesTheSyndrome := by
  intro c s
  refine ⟨s.driveDecCodeword c, exec_synd c s, rfl, rfl, ?zero_word,
    fun i => ⟨synd_getLsbD _ c i, ?all_ones, ?zero_row, ?one_bit⟩⟩
  case zero_word => rintro rfl; exact synd_zero _
  case all_ones => rintro rfl; exact synd_allOnes_getLsbD _ i
  case zero_row => exact synd_getLsbD_of_row_zero c
  case one_bit => rintro b rfl; exact synd_oneBit_getLsbD _ b i

/-- Settles O36, row by row: the identity block of `WF_H` selects one parity bit, and the low byte of the row recomputes
it. -/
theorem syndromeIsParityDifference : Obligations.SyndromeIsParityDifference :=
  fun _ h c => synd_eq_parityDifference h c

/-- Settles O37: a single bit lies in one byte of the word alone, and an encoder output adds nothing to the syndrome of
an error in it. -/
theorem singleBitSyndromes : Obligations.SingleBitSyndromes := by
  intro T h
  refine ⟨fun p hp => synd_oneBit_parity h hp, fun p => ⟨synd_oneBit_data h p, fun i => ?_⟩,
    fun d p => synd_encodeByte_xor h d (oneBit 16 p)⟩
  rw [synd_oneBit_data h p, pargen_oneBit_getLsbD]

/-- Settles O29: `dec_syndrome` is a function of `H` and the word, and the same word is driven onto the corrector. -/
theorem syndReadsOnlyH : Obligations.SyndReadsOnlyH := by
  intro c s s' h
  refine ⟨_, _, exec_synd c s, exec_synd c s', ?_, rfl, rfl⟩
  simp only [driveDecCodeword_dec, decodePorts_of_eq, h]

end Sys2Proof.Machine
end

section
/-! PROOFS. The error-pattern table: its entry at an address (rules R130, R131), and which constants the ports of DECODE and
the pins of the lone units are a function of (rules R130, R150 to R153; log entry 3). -/

namespace Sys2Proof.Machine

/-! The entry at an address. -/

/-- The address is the unsigned number of the entry (rule R130). -/
theorem eplook_eq_getElem (LUT : Vector Word 256) {a : Byte} {k : Fin 256} (h : a.toNat = k.val) :
    eplook LUT a = LUT[k] := by
  simp only [eplook_eq, h, Fin.getElem_fin]

/-! The ports and pins as functions of the constants. -/

/-- Driving `dec_codeword` reads `H` and the one entry at the word's syndrome, and no earlier value (rules R152, R153). -/
theorem driveDecCodeword_dec_congr {s s' : State} {c : Word} (hH : s.tables.H = s'.tables.H)
    (hentry : eplook s.tables.LUT (synd s.tables.H c) = eplook s'.tables.LUT (synd s.tables.H c)) :
    (s.driveDecCodeword c).dec = (s'.driveDecCodeword c).dec := by
  rw [driveDecCodeword_dec, driveDecCodeword_dec, decodePorts_of_eq, decodePorts_of_eq, hentry, hH]

/-- Driving a lone table's address reads the one entry there, and no earlier value (rule R130). -/
theorem driveRom_rom_congr {s s' : State} {a : Byte} (hentry : eplook s.tables.LUT a = eplook s'.tables.LUT a) :
    (s.driveRom a).rom = (s'.driveRom a).rom := by
  rw [driveRom_rom, driveRom_rom, RomPins.of, RomPins.of, hentry]

/-! The statements. -/

/-- Settles O12: the address is driven onto a lone table, whose pattern is the entry with the address's number. -/
theorem eplookGivesTheEntry : Obligations.EplookGivesTheEntry := by
  intro a s
  refine ⟨s.driveRom a, exec_eplook a s, rfl, rfl, fun k hk => eplook_eq_getElem s.tables.LUT hk, ?zero_address⟩
  case zero_address => rintro rfl hLUT0; exact hLUT0

/-- Settles O30: each operation drives its own unit, whose outputs are a function of the inputs and of the constants named;
a corrector and the output wiring have no constant. -/
theorem decodeReadsHAndOneEntry : Obligations.DecodeReadsHAndOneEntry := by
  refine ⟨fun c s s' hH hentry => ?decode, fun a s s' hentry => ?eplook, fun c e cc s s' => ⟨?corr, ?extract⟩⟩
  case decode => exact ⟨_, _, exec_decode c s, exec_decode c s', driveDecCodeword_dec_congr hH hentry⟩
  case eplook => exact ⟨_, _, exec_eplook a s, exec_eplook a s', driveRom_rom_congr hentry⟩
  case corr => exact ⟨_, _, exec_corr c e s, exec_corr c e s', rfl⟩
  case extract => exact ⟨_, _, exec_extract cc s, exec_extract cc s', rfl⟩

end Sys2Proof.Machine
end

section
/-! PROOFS. The error corrector: the corrected codeword and its corner cases (rule R150), the low byte (rule R151), the four
steps of DECODE in series (rule R152), a zero pattern (rules R133, R155), and the data byte from the low bytes (rule R156). -/

namespace Sys2Proof.Machine

/-! The corrected codeword (rule R150). -/

theorem corr_zero (c : Word) : corr c 0#16 = c := BitVec.xor_zero

theorem corr_allOnes (c : Word) : corr c (BitVec.allOnes 16) = ~~~c := BitVec.xor_allOnes

theorem corr_self (c : Word) : corr c c = 0#16 := BitVec.xor_self

/-- Correcting twice with one pattern restores the word: exclusive-or is its own inverse. -/
theorem corr_corr (c e : Word) : corr (corr c e) e = c := by
  rw [corr_eq, corr_eq, BitVec.xor_assoc, BitVec.xor_self, BitVec.xor_zero]

/-! The low byte (rules R151, R156). -/

/-- The output wiring has no wire from bits 15..8. -/
theorem extract_congr {c c' : Word} (h : ∀ b : Fin 8, c.getLsbD b = c'.getLsbD b) : extract c = extract c' :=
  BitVec.eq_of_getLsbD_eq fun b hb =>
    calc (dataByte c).getLsbD b
      _ = c.getLsbD b := dataByte_getLsbD c hb
      _ = c'.getLsbD b := h ⟨b, hb⟩
      _ = (dataByte c').getLsbD b := (dataByte_getLsbD c' hb).symm

/-- Exclusive-or goes bit by bit, so the low byte of the corrected codeword needs the low bytes only. -/
theorem extract_corr (c e : Word) : extract (corr c e) = dataByte c ^^^ dataByte e := dataByte_xor c e

/-! The decode ports under a zero pattern (rules R133, R155). -/

/-- The premises of pass-through come to one: the entry at the word's syndrome is zero. -/
theorem entry_eq_zero_of_passThrough {T : Tables} {c : Word}
    (h : (WF_LUT0 T ∧ synd T.H c = 0#8) ∨ eplook T.LUT (synd T.H c) = 0#16) :
    eplook T.LUT (synd T.H c) = 0#16 := by
  obtain ⟨zero_entry, zero_synd⟩ | zero_pattern := h
  · rw [zero_synd]
    exact zero_entry
  · exact zero_pattern

theorem decodePorts_of_zero_pattern {H : Vector Word 8} {LUT : Vector Word 256} {c : Word}
    (h : eplook LUT (synd H c) = 0#16) : DecodePorts.of H LUT c = ⟨c, synd H c, 0, c, dataByte c⟩ := by
  rw [decodePorts_of_eq, h, BitVec.xor_zero]
  rfl

/-! The statements. -/

/-- Settles O15: the word is driven onto `dec_codeword`, and each later port is its unit's function of the ones before. -/
theorem decodeGivesTheDataByte : Obligations.DecodeGivesTheDataByte := by
  intro c s
  refine ⟨s.driveDecCodeword c, exec_decode c s, rfl, rfl, synd_getLsbD _ c,
    fun k hk => eplook_eq_getElem s.tables.LUT hk, fun b => BitVec.getLsbD_xor, fun b => dataByte_getLsbD _ b.isLt,
    rfl, ?zero_word⟩
  case zero_word =>
    rintro rfl
    rw [driveDecCodeword_dec, decodePorts_of_zero]
    exact ⟨rfl, rfl, rfl, fun hLUT0 => (congrArg dataByte hLUT0).trans dataByte_zero⟩

/-- Settles O48: each premise makes the entry at the syndrome zero, and exclusive-or with zero changes nothing. -/
theorem zeroPatternPassesThrough : Obligations.ZeroPatternPassesThrough := by
  refine ⟨fun c s => ⟨s.driveCorrector c 0, exec_corr c 0 s, corr_zero c⟩, fun c s h => ?decode⟩
  case decode =>
    refine ⟨s.driveDecCodeword c, exec_decode c s, ?_⟩
    rw [driveDecCodeword_dec, decodePorts_of_zero_pattern (entry_eq_zero_of_passThrough h)]
    exact ⟨rfl, rfl, rfl⟩

/-- Settles O13: both words are driven onto a lone corrector, which takes their exclusive-or. -/
theorem corrGivesTheCorrectedCodeword : Obligations.CorrGivesTheCorrectedCodeword := by
  intro c e s
  refine ⟨s.driveCorrector c e, exec_corr c e s, rfl, rfl, rfl, fun b => BitVec.getLsbD_xor,
    ?zero_pattern, ?all_ones, ?same_word, _, exec_corr _ e _, corr_corr c e⟩
  case zero_pattern => rintro rfl; exact corr_zero c
  case all_ones => rintro rfl; exact corr_allOnes c
  case same_word => rintro rfl; exact corr_self e

/-- Settles O14: the word is driven onto a lone output wiring, which carries bits 7..0 and no other. -/
theorem extractGivesTheLowByte : Obligations.ExtractGivesTheLowByte := by
  intro cc s
  exact ⟨s.driveExtractor cc, exec_extract cc s, rfl, rfl, fun b => dataByte_getLsbD cc b.isLt,
    fun cc' same_low => ⟨s.driveExtractor cc', exec_extract cc' s, extract_congr same_low⟩⟩

/-- Settles O49: the low byte of an exclusive-or is the exclusive-or of the low bytes. -/
theorem dataByteFromTheLowBytes : Obligations.DataByteFromTheLowBytes :=
  fun c s => ⟨s.driveDecCodeword c, exec_decode c s, extract_corr c _⟩

end Sys2Proof.Machine
end

section
/-! PROOFS. The laws of R183's table: the zero-syndrome invariant and the form of `H` it forces (rules R171 to R173), what
decoding a codeword with an error in it gives (rules R174 to R178, R181, R182), the distance that `SEC_P` is (rule R179),
and tables under which a law holds or fails (rules R178, R183). -/

namespace Sys2Proof.Machine

/-! The form of `H` (rule R172). -/

/-- With the identity block, row `i` of an encoder output's syndrome sets parity index `i` against the low byte of row `i`
of `H`. -/
theorem synd_encodeByte_getLsbD {H : Vector Word 8} (h : HasIdentityBlock H) (P : Vector Byte 8) (d : Byte)
    (i : Fin 8) :
    (synd H (encodeByte P d)).getLsbD (7 - i.val) = (redxor (P[i] &&& d) ^^ redxor (dataByte H[i] &&& d)) := by
  rw [synd_getLsbD, encodeByte, redxor_and_join, h i, redxor_identityRow, pargen_getLsbD]

/-- The row form is the identity block above the rows of `P` (rule R23). -/
theorem wf_H_of_identityBlock {T : Tables} (h : HasIdentityBlock T.H)
    (hrows : ∀ i : Fin 8, dataByte T.H[i] = T.P[i]) : WF_H T :=
  fun i => codeword_ext (by rw [parityByte_join, h i]) (by rw [dataByte_join, hrows i])

/-- The byte with bit `b` alone compares the two rows at bit `b`, so the invariant over all bytes makes them equal. -/
theorem zeroSyndrome_iff_rowForm {T : Tables} (h : HasIdentityBlock T.H) :
    (∀ d, synd T.H (encodeByte T.P d) = 0#8) ↔ ∀ i : Fin 8, dataByte T.H[i] = T.P[i] := by
  refine ⟨fun hzero i => ?_, fun hrows => synd_encodeByte (wf_H_of_identityBlock h hrows)⟩
  apply BitVec.eq_of_getLsbD_eq
  intro b hb
  have row := synd_encodeByte_getLsbD h T.P (oneBit 8 b) i
  rw [hzero, redxor_and_oneBit _ hb, redxor_and_oneBit _ hb, BitVec.getLsbD_zero] at row
  exact (bne_eq_false_iff_eq.mp row.symm).symm

/-- The columns of `P` are its rows exactly when `P` is symmetric (rule R23, conflict C1). -/
theorem columnByte_eq_row_iff_symmetric {P : Vector Byte 8} :
    (∀ i : Fin 8, columnByte P i = P[i]) ↔ SymmetricP P := by
  have column_bit : ∀ i j : Fin 8, (columnByte P i).getLsbD (7 - j.val) = P[j].getLsbD (7 - i.val) :=
    fun i j => packRows_getLsbD _ j
  exact ⟨fun h i j => by rw [← h i, column_bit],
    fun hsymm i => byte_ext_rows fun j => (column_bit i j).trans (hsymm i j).symm⟩

/-! Valid words (rule R173). -/

theorem valid_iff_eq_encodeByte {P : Vector Byte 8} {c : Word} : Valid P c ↔ c = encodeByte P (dataByte c) := by
  refine ⟨fun hvalid => codeword_ext ?_ ?_, fun h => ?_⟩
  · rw [parityByte_encode, hvalid]
  · rw [dataByte_encode]
  · rw [Valid, congrArg parityByte h, parityByte_encode]

/-- The code is systematic, so the valid words are the encoder's outputs. -/
theorem setOf_valid (P : Vector Byte 8) : {c : Word | Valid P c} = Set.range (encodeByte P) := by
  ext c
  refine ⟨fun hvalid => ⟨dataByte c, (valid_iff_eq_encodeByte.mp hvalid).symm⟩, ?_⟩
  rintro ⟨d, rfl⟩
  exact valid_iff_eq_encodeByte.mpr (by rw [dataByte_encode])

/-- The valid words are closed under exclusive-or, since PARGEN is linear (rule R94). -/
theorem valid_xor {P : Vector Byte 8} {c c' : Word} (h : Valid P c) (h' : Valid P c') : Valid P (c ^^^ c') := by
  rw [Valid, parityByte_xor, dataByte_xor, pargen_xor, h, h']

theorem valid_zero (P : Vector Byte 8) : Valid P 0#16 := by
  rw [Valid, parityByte_zero, dataByte_zero, pargen_zero]

/-! Decoding a codeword with an error in it (rules R174 to R178). -/

/-- The residual is zero exactly when the table has the error at the error's syndrome. -/
theorem residualError_eq_zero_iff {T : Tables} {x : Word} :
    residualError T x = 0#16 ↔ eplook T.LUT (synd T.H x) = x :=
  BitVec.xor_eq_zero_iff.trans eq_comm

theorem residualError_of_zero_entry {T : Tables} {x : Word} (hentry : eplook T.LUT (synd T.H x) = 0#16) :
    residualError T x = x := by
  rw [residualError, hentry, BitVec.xor_zero]

/-- The residual spares the data byte exactly when the error and the entry agree there. -/
theorem dataByte_residualError_eq_zero_iff {T : Tables} {x : Word} :
    dataByte (residualError T x) = 0#8 ↔ dataByte x = dataByte (eplook T.LUT (synd T.H x)) := by
  rw [residualError, dataByte_xor, BitVec.xor_eq_zero_iff]

/-- Under `WF_H` the codeword adds nothing to the syndrome, so the entry that is read, and what it leaves of the error,
depend on the error alone. -/
theorem decodePath_corrupted {T : Tables} (h : WF_H T) (d : Byte) (x : Word) :
    decodePath T (encodeByte T.P d ^^^ x) =
      ⟨encodeByte T.P d ^^^ x, synd T.H x, eplook T.LUT (synd T.H x), encodeByte T.P d ^^^ residualError T x,
        d ^^^ dataByte (residualError T x)⟩ := by
  rw [decodePath, decodePorts_of_eq, synd_encodeByte_xor h, BitVec.xor_assoc, ← residualError, dataByte_xor,
    dataByte_encode]

theorem decodePath_corrupted_data_eq_iff {T : Tables} (h : WF_H T) {d : Byte} {x : Word} :
    (decodePath T (encodeByte T.P d ^^^ x)).data = d ↔ dataByte (residualError T x) = 0#8 := by
  rw [decodePath_corrupted h, xor_left_eq_self_iff]
  rfl

theorem decodeCodeword_corrupted_eq_iff {T : Tables} (h : WF_H T) {d : Byte} {x : Word} :
    decodeCodeword T.H T.LUT (encodeByte T.P d ^^^ x) = d ↔ dataByte x = dataByte (eplook T.LUT (synd T.H x)) :=
  (decodePath_corrupted_data_eq_iff h).trans dataByte_residualError_eq_zero_iff

/-- An error that is the entry at its own syndrome is removed, whatever the byte (rules R176, R178). -/
theorem decodePath_removed {T : Tables} (h : WF_H T) {x : Word} (hentry : eplook T.LUT (synd T.H x) = x) (d : Byte) :
    (decodePath T (encodeByte T.P d ^^^ x)).data = d ∧
      (decodePath T (encodeByte T.P d ^^^ x)).corrected = encodeByte T.P d := by
  rw [decodePath_corrupted h, residualError_eq_zero_iff.mpr hentry]
  exact ⟨BitVec.xor_zero, BitVec.xor_zero⟩

/-- A codeword without an error: the entry of syndrome 0 is all that is added (rule R174). -/
theorem decodePath_encodeByte {T : Tables} (h : WF_H T) (d : Byte) :
    decodePath T (encodeByte T.P d) =
      ⟨encodeByte T.P d, 0, eplook T.LUT 0, encodeByte T.P d ^^^ eplook T.LUT 0, d ^^^ dataByte (eplook T.LUT 0)⟩ := by
  simpa [residualError] using decodePath_corrupted h d 0#16

theorem decodePath_encodeByte_of_wf_LUT0 {T : Tables} (h : WF_H T) (h0 : WF_LUT0 T) (d : Byte) :
    decodePath T (encodeByte T.P d) = ⟨encodeByte T.P d, 0, 0, encodeByte T.P d, d⟩ := by
  have zero_entry : eplook T.LUT 0 = 0#16 := h0
  rw [decodePath_encodeByte h, zero_entry, dataByte_zero, BitVec.xor_zero, BitVec.xor_zero]
  rfl

/-- A word of zero syndrome passes through; nothing is asked of `H` (rule R177). -/
theorem decodePath_zero_syndrome {T : Tables} (h0 : WF_LUT0 T) {c : Word} (hc : synd T.H c = 0#8) :
    (decodePath T c).data = dataByte c ∧ (decodePath T c).corrected = c := by
  rw [decodePath, decodePorts_of_zero_pattern (entry_eq_zero_of_passThrough (.inl ⟨h0, hc⟩))]
  exact ⟨rfl, rfl⟩

/-- ENCODE completes, and so does DECODE of any word after it, with the ports of the tables of the state before both. -/
theorem exec_encode_decode (d : Byte) (s : State) :
    ∃ t, exec (.encode d) s = .next t ∧ t.enc.codeword = encodeByte s.tables.P d ∧
      ∀ c, ∃ u, exec (.decode c) t = .next u ∧ u.dec = decodePath s.tables c :=
  ⟨_, exec_encode d s, rfl, fun c => ⟨_, exec_decode c _, rfl⟩⟩

/-! Coset tables (rule R182). -/

/-- A nonzero entry has the syndrome of the word it is read for, so adding it gives syndrome zero. -/
theorem valid_corrected_of_coset {T : Tables} (h : WF_H T) (hcoset : WF_LUT_COSET T) {c : Word}
    (hc : eplook T.LUT (synd T.H c) ≠ 0#16 ∨ synd T.H c = 0#8) : Valid T.P (decodePath T c).corrected := by
  have entry_synd : synd T.H (eplook T.LUT (synd T.H c)) = synd T.H c := by
    obtain hzero | hsynd := hcoset (synd T.H c).toFin
    · have zero_entry : eplook T.LUT (synd T.H c) = 0#16 := hzero
      rw [zero_entry, synd_zero, hc.resolve_left (not_not.mpr zero_entry)]
    · exact hsynd
  apply (synd_eq_zero_iff_valid h _).mp
  rw [decodePath, decodePorts_of_eq, synd_xor, entry_synd, BitVec.xor_self]

theorem corrected_of_zero_entry {T : Tables} {c : Word} (hc : eplook T.LUT (synd T.H c) = 0#16) :
    (decodePath T c).corrected = c := by
  rw [decodePath, decodePorts_of_zero_pattern hc]

/-! Weights of at most two (rule R10). -/

@[simp] theorem popcount_zero {w : Nat} : popcount (0#w) = 0 := by
  have low : ∀ n, popcountLow (0#w) n = 0 := by
    intro n
    induction n with
    | zero => rfl
    | succ n ih => rw [popcountLow, ih]; simp
  exact low w

/-- A set bit can be taken out of a value of nonzero weight. -/
theorem exists_flip_of_popcount {w n : Nat} {v : BitVec w} (h : popcount v = n + 1) :
    ∃ p < w, v.getLsbD p = true ∧ popcount (v ^^^ oneBit w p) = n := by
  obtain ⟨p, hp, hset⟩ := exists_bit_of_popcountLow (v := v) (n := w) (by rw [← popcount, h]; exact n.succ_ne_zero)
  have := popcount_flip hp hset
  exact ⟨p, hp, hset, by omega⟩

theorem popcount_oneBit {w p : Nat} (hp : p < w) : popcount (oneBit w p) = 1 := by
  rw [popcount_flip hp (by simp [oneBit_getLsbD hp]), BitVec.xor_self, popcount_zero]

theorem popcount_oneBit_xor_oneBit {w p q : Nat} (hp : p < w) (hq : q < w) (hne : p ≠ q) :
    popcount (oneBit w p ^^^ oneBit w q) = 2 := by
  rw [popcount_flip hq (by simp [oneBit_getLsbD hq, hne.symm]), xor_cancel_right, popcount_oneBit hp]

theorem popcount_eq_one_iff {w : Nat} {v : BitVec w} : popcount v = 1 ↔ ∃ p < w, v = oneBit w p := by
  constructor
  · intro h
    obtain ⟨p, hp, -, hrest⟩ := exists_flip_of_popcount h
    exact ⟨p, hp, BitVec.xor_eq_zero_iff.mp (eq_zero_of_popcount hrest)⟩
  · rintro ⟨p, hp, rfl⟩
    exact popcount_oneBit hp

theorem popcount_eq_two_iff {w : Nat} {v : BitVec w} :
    popcount v = 2 ↔ ∃ p < w, ∃ q < w, p ≠ q ∧ v = oneBit w p ^^^ oneBit w q := by
  constructor
  · intro h
    obtain ⟨p, hp, hset, hrest⟩ := exists_flip_of_popcount h
    obtain ⟨q, hq, hbit⟩ := popcount_eq_one_iff.mp hrest
    have apart : p ≠ q := by
      rintro rfl
      have := congrArg (·.getLsbD p) hbit
      simp [hset, oneBit_getLsbD hp] at this
    exact ⟨p, hp, q, hq, apart, by rw [← hbit, BitVec.xor_comm v, xor_cancel_left]⟩
  · rintro ⟨p, hp, q, hq, hne, rfl⟩
    exact popcount_oneBit_xor_oneBit hp hq hne

theorem two_le_popcount_iff {w : Nat} {v : BitVec w} :
    2 ≤ popcount v ↔ v ≠ 0#w ∧ ∀ p < w, v ≠ oneBit w p := by
  have zero : popcount v = 0 ↔ v = 0#w := ⟨eq_zero_of_popcount, by rintro rfl; exact popcount_zero⟩
  have one : popcount v ≠ 1 ↔ ∀ p < w, v ≠ oneBit w p := by simp [popcount_eq_one_iff]
  rw [ne_eq, ← zero, ← one]
  omega

/-! `SEC_P` as a distance and as a condition on the columns of `P` (rule R179). -/

theorem oneBitSynd_castAdd {T : Tables} (h : WF_H T) (b : Fin 8) :
    oneBitSynd T.H (b.castAdd 8) = pargen T.P (oneBit 8 b) :=
  synd_oneBit_data h b

theorem oneBitSynd_natAdd {T : Tables} (h : WF_H T) (b : Fin 8) : oneBitSynd T.H (b.natAdd 8) = oneBit 8 b := by
  rw [oneBitSynd, synd_oneBit_parity h (by simp), Fin.val_natAdd, Nat.add_sub_cancel_left]

theorem oneBit_ne {w p q : Nat} (hp : p < w) (hq : q < w) (hne : p ≠ q) : oneBit w p ≠ oneBit w q := by
  intro heq
  have two := popcount_oneBit_xor_oneBit hp hq hne
  rw [heq, BitVec.xor_self, popcount_zero] at two
  exact absurd two (by decide)

/-- No data position is a parity position. -/
theorem castAdd_ne_natAdd (b p : Fin 8) : b.castAdd 8 ≠ p.natAdd 8 := by
  rw [ne_eq, Fin.ext_iff, Fin.val_castAdd, Fin.val_natAdd]
  omega

/-- A column of weight at least 2 is one that no parity position has (rule R179). -/
theorem sec_P_iff_columns {T : Tables} (h : WF_H T) :
    SEC_P T ↔ (∀ b b' : Fin 8, b ≠ b' → pargen T.P (oneBit 8 b) ≠ pargen T.P (oneBit 8 b')) ∧
      ∀ b : Fin 8, 2 ≤ popcount (pargen T.P (oneBit 8 b)) := by
  have data_synd := oneBitSynd_castAdd h
  have parity_synd := oneBitSynd_natAdd h
  constructor
  · rintro ⟨nonzero, distinct⟩
    refine ⟨fun b b' hne => ?_, fun b => two_le_popcount_iff.mpr ⟨?_, fun p hp => ?_⟩⟩
    · rw [← data_synd b, ← data_synd b']
      exact distinct _ _ (by simpa [Fin.ext_iff] using hne)
    · rw [← data_synd b]
      exact nonzero _
    · rw [← data_synd b, ← parity_synd ⟨p, hp⟩]
      exact distinct _ _ (castAdd_ne_natAdd b ⟨p, hp⟩)
  · rintro ⟨distinct, weight⟩
    have no_parity : ∀ b p : Fin 8, pargen T.P (oneBit 8 b) ≠ oneBit 8 p :=
      fun b p => (two_le_popcount_iff.mp (weight b)).2 p p.isLt
    refine ⟨(Fin.forall_fin_add (m := 8) (n := 8) _).mpr ⟨fun b => ?_, fun p => ?_⟩,
      (Fin.forall_fin_add (m := 8) (n := 8) _).mpr ⟨fun b => ?_, fun p => ?_⟩⟩
    · rw [data_synd]
      exact (two_le_popcount_iff.mp (weight b)).1
    · rw [parity_synd]
      intro hzero
      simpa [hzero] using popcount_oneBit p.isLt
    · refine (Fin.forall_fin_add (m := 8) (n := 8) _).mpr ⟨fun b' hne => ?_, fun q _ => ?_⟩
      · rw [data_synd, data_synd]
        exact distinct b b' (by simpa [Fin.ext_iff] using hne)
      · rw [data_synd, parity_synd]
        exact no_parity b q
    · refine (Fin.forall_fin_add (m := 8) (n := 8) _).mpr ⟨fun b _ => ?_, fun q hne => ?_⟩
      · rw [data_synd, parity_synd]
        exact (no_parity b p).symm
      · rw [parity_synd, parity_synd]
        exact oneBit_ne p.isLt q.isLt (by simpa [Fin.ext_iff] using hne)

/-- Single-bit syndromes are nonzero and distinct exactly when no error of weight 1 or 2 has syndrome zero; that holds for
every `H`. -/
theorem sec_P_iff_weight {T : Tables} :
    SEC_P T ↔ ∀ x, synd T.H x = 0#8 → x ≠ 0#16 → 3 ≤ popcount x := by
  constructor
  · rintro ⟨nonzero, distinct⟩ x hx hne
    have not_zero : popcount x ≠ 0 := fun hweight => hne (eq_zero_of_popcount hweight)
    have not_one : popcount x ≠ 1 := by
      intro hweight
      obtain ⟨p, hp, rfl⟩ := popcount_eq_one_iff.mp hweight
      exact nonzero ⟨p, hp⟩ hx
    have not_two : popcount x ≠ 2 := by
      intro hweight
      obtain ⟨p, hp, q, hq, hpq, rfl⟩ := popcount_eq_two_iff.mp hweight
      rw [synd_xor, BitVec.xor_eq_zero_iff] at hx
      exact distinct ⟨p, hp⟩ ⟨q, hq⟩ (by simpa using hpq) hx
    omega
  · intro weight
    refine ⟨fun p hp => ?_, fun p q hpq hsame => ?_⟩
    · have one := popcount_oneBit p.isLt
      have := weight (oneBit 16 p) hp (fun hzero => by simp [hzero] at one)
      omega
    · have apart : p.val ≠ q.val := Fin.val_ne_of_ne hpq
      have two := popcount_oneBit_xor_oneBit p.isLt q.isLt apart
      have hzero : synd T.H (oneBit 16 p ^^^ oneBit 16 q) = 0#8 := by
        rw [synd_xor, BitVec.xor_eq_zero_iff]
        exact hsame
      have := weight _ hzero (by rw [ne_eq, BitVec.xor_eq_zero_iff]; exact oneBit_ne p.isLt q.isLt apart)
      omega

/-- The valid words are closed under exclusive-or, so their least distance is the least weight of a nonzero one. -/
theorem sec_P_iff_distance {T : Tables} (h : WF_H T) :
    SEC_P T ↔ ∀ c c', Valid T.P c → Valid T.P c' → c ≠ c' → 3 ≤ popcount (c ^^^ c') := by
  rw [sec_P_iff_weight]
  constructor
  · intro weight c c' hc hc' hne
    exact weight _ ((synd_eq_zero_iff_valid h _).mpr (valid_xor hc hc'))
      (by rwa [ne_eq, BitVec.xor_eq_zero_iff])
  · intro distance x hx hne
    simpa using distance x 0#16 ((synd_eq_zero_iff_valid h x).mp hx) (valid_zero T.P) hne

/-- Two errors with one syndrome that agree in the low byte agree in the high byte, which the syndrome gives (rule R111). -/
theorem eq_of_synd_eq {T : Tables} (h : WF_H T) {x y : Word} (hsynd : synd T.H x = synd T.H y)
    (low : dataByte x = dataByte y) : x = y := by
  rw [synd_eq_parityDifference h, synd_eq_parityDifference h, low, BitVec.xor_left_inj] at hsynd
  exact codeword_ext hsynd low

/-! Tables that meet the premises, and tables that refute the laws (rules R178, R183). -/

/-- The row form of `H` over a given `P` (rule R23). -/
def rowFormH (P : Vector Byte 8) : Vector Word 8 :=
  Vector.ofFn fun i => joinCodeword (identityRow i) P[i]

theorem wf_H_rowFormH (P : Vector Byte 8) (LUT : Vector Word 256) : WF_H ⟨P, rowFormH P, LUT⟩ := by
  intro i
  simp [rowFormH]

theorem eplook_replicate (e : Word) (a : Byte) : eplook (Vector.replicate 256 e) a = e := by
  simp [eplook_eq]

/-- The bit of a position with syndrome `a`; no pattern where there is none. -/
def singleBitEntry (H : Vector Word 8) (a : Byte) : Word :=
  match (List.finRange 16).find? fun p => oneBitSynd H p = a with
  | some p => oneBit 16 p
  | none => 0#16

/-- The table that corrects single bits and declines everything else. -/
def singleBitLUT (H : Vector Word 8) : Vector Word 256 :=
  Vector.ofFn fun a => singleBitEntry H (BitVec.ofFin a)

@[simp] theorem eplook_singleBitLUT (H : Vector Word 8) (a : Byte) : eplook (singleBitLUT H) a = singleBitEntry H a := by
  simp [eplook_eq, singleBitLUT]

theorem singleBitEntry_cases (H : Vector Word 8) (a : Byte) :
    (singleBitEntry H a = 0#16 ∧ ∀ p, oneBitSynd H p ≠ a) ∨
      ∃ p, oneBitSynd H p = a ∧ singleBitEntry H a = oneBit 16 p := by
  unfold singleBitEntry
  split
  · next p hfound => exact .inr ⟨p, by simpa using List.find?_some hfound, rfl⟩
  · next hnone => exact .inl ⟨rfl, by simpa using hnone⟩

theorem wf_LUT0_singleBitLUT {P : Vector Byte 8} {H : Vector Word 8} (hsec : SEC_P ⟨P, H, singleBitLUT H⟩) :
    WF_LUT0 ⟨P, H, singleBitLUT H⟩ := by
  obtain ⟨hzero, -⟩ | ⟨p, hp, -⟩ := singleBitEntry_cases H 0#8
  · exact (eplook_singleBitLUT H _).trans hzero
  · exact absurd hp (hsec.1 p)

theorem wf_LUT_SB_singleBitLUT (P : Vector Byte 8) (H : Vector Word 8) : WF_LUT_SB ⟨P, H, singleBitLUT H⟩ := by
  intro p alone
  rw [eplook_singleBitLUT]
  obtain ⟨-, hnone⟩ | ⟨q, hq, hentry⟩ := singleBitEntry_cases H (oneBitSynd H p)
  · exact absurd rfl (hnone p)
  · obtain rfl : q = p := by_contra fun hne => alone q hne hq
    exact hentry

theorem wf_LUT_COSET_singleBitLUT (P : Vector Byte 8) (H : Vector Word 8) :
    WF_LUT_COSET ⟨P, H, singleBitLUT H⟩ := by
  intro a
  rw [eplook_singleBitLUT]
  obtain ⟨hzero, -⟩ | ⟨p, hp, hentry⟩ := singleBitEntry_cases H (BitVec.ofFin a)
  · exact .inl hzero
  · exact .inr (hentry ▸ hp)

/-- Each parity index is the exclusive-or of two neighbouring data bits, so each column has weight 2. -/
def neighbourP : Vector Byte 8 := #v[0x81, 0xC0, 0x60, 0x30, 0x18, 0x0C, 0x06, 0x03]

/-- Single-bit correction over `neighbourP`. -/
def neighbourTables : Tables := ⟨neighbourP, rowFormH neighbourP, singleBitLUT (rowFormH neighbourP)⟩

theorem wf_H_neighbourTables : WF_H neighbourTables := wf_H_rowFormH _ _

theorem sec_P_neighbourTables : SEC_P neighbourTables :=
  (sec_P_iff_columns wf_H_neighbourTables).mpr (by decide)

/-- Rows that are no row form, and one pattern of weight 2 at every address. -/
def refutingTables : Tables :=
  ⟨Vector.replicate 8 0x00, Vector.replicate 8 0x0001, Vector.replicate 256 0x0101⟩

theorem not_wf_H_refutingTables : ¬ WF_H refutingTables := by decide

theorem not_wf_LUT0_refutingTables : ¬ WF_LUT0 refutingTables := by decide

/-- No flip of one bit is undone by a pattern of two. -/
theorem not_flipRemoved_refutingTables (p : Fin 16) : ¬ FlipRemoved refutingTables p := by
  have changed : ∀ p : Fin 16, (decodePath refutingTables (encodeByte refutingTables.P 0 ^^^ oneBit 16 p)).corrected ≠
      encodeByte refutingTables.P 0 := by decide
  exact fun removed => changed p (removed 0).2

theorem not_premises_refutingTables {law : Law} (hlinear : law ≠ .linear) (hsystematic : law ≠ .systematic) :
    ¬ law.Premises refutingTables := by
  cases law with
  | linear => exact absurd rfl hlinear
  | systematic => exact absurd rfl hsystematic
  | noOp => exact not_wf_LUT0_refutingTables
  | parityDifference | zeroSyndrome | zeroIffValid | errorDecomposition => exact not_wf_H_refutingTables
  | roundTrip | flipAt p | flipAnywhere | validOrUnchanged => exact fun premises => not_wf_H_refutingTables premises.1

/-- The word 1 is the encoding of the byte 1 and has syndrome 0xFF; the zero word, whose syndrome is 0, becomes 0x0101. -/
theorem not_holds_refutingTables {law : Law} (hlinear : law ≠ .linear) (hsystematic : law ≠ .systematic) :
    ¬ law.Holds refutingTables := by
  intro holds
  cases law with
  | linear => exact hlinear rfl
  | systematic => exact hsystematic rfl
  | parityDifference => exact absurd (holds 1) (by decide)
  | zeroSyndrome => exact absurd (holds 1) (by decide)
  | zeroIffValid => exact absurd (holds 1) (by decide)
  | roundTrip => exact absurd (holds 1) (by decide)
  | errorDecomposition => exact absurd (holds 1 0).1 (by decide)
  | flipAt p => exact not_flipRemoved_refutingTables p holds
  | flipAnywhere => exact not_flipRemoved_refutingTables 0 (holds 0)
  | noOp => exact absurd (holds 0 (synd_zero _)).2 (by decide)
  | validOrUnchanged => exact absurd ((holds 0).1 (.inr (synd_zero _))) (by decide)

/-! The worked example (rule R181). -/

/-- Bit 13 is parity index 2, bit 5 of the syndrome. -/
theorem synd_bit13 {T : Tables} (h : WF_H T) : synd T.H 0x2000 = 0x20 :=
  synd_oneBit_parity h (p := 13) (by decide)

theorem workedExampleHolds {T : Tables} (h : WF_H T) : WorkedExampleHolds T where
  layout := rfl
  flipSyndrome := by
    rw [workedReceived, workedCodeword, decodePath_corrupted h]
    exact synd_bit13 h
  flipCorrected hentry := decodePath_removed h (x := 0x2000) (by rw [synd_bit13 h, hentry]) 0xAA
  clean h0 := by
    rw [workedCodeword, decodePath_encodeByte_of_wf_LUT0 h h0]
    exact ⟨rfl, rfl⟩

/-! The statements. -/

/-- Settles O35: SYND is linear since the reduction is; a table with one nonzero pattern at every address adds that pattern
once on the left and twice on the right. -/
theorem syndIsLinearAndLookupIsNot : Obligations.SyndIsLinearAndLookupIsNot := by
  refine ⟨fun H x y => ⟨synd_xor H x y, synd_zero H⟩, ⟨Vector.replicate 256 1, 0, 0, ?lookup⟩,
    ⟨Vector.replicate 8 0, Vector.replicate 256 1, 0, 0, ?decode⟩⟩
  case lookup => simp only [eplook_replicate]; decide
  case decode => simp only [decodeCodeword_eq, eplook_replicate]; decide

/-- Settles O38: the single-bit bytes compare the rows bit by bit; the column reading has the identity block too, with the
columns of `P` as its low bytes. -/
theorem zeroSyndromeForcesTheRowForm : Obligations.ZeroSyndromeForcesTheRowForm := by
  refine fun T => ⟨synd_encodeByte, zeroSyndrome_iff_rowForm, fun hcolumns => ?_⟩
  have identity : HasIdentityBlock T.H := fun i => by rw [hcolumns i, parityByte_join]
  have low : ∀ i : Fin 8, dataByte T.H[i] = columnByte T.P i := fun i => by rw [hcolumns i, dataByte_join]
  calc (∀ d, synd T.H (encodeByte T.P d) = 0)
    _ ↔ ∀ i : Fin 8, dataByte T.H[i] = T.P[i] := zeroSyndrome_iff_rowForm identity
    _ ↔ ∀ i : Fin 8, columnByte T.P i = T.P[i] := by simp only [low]
    _ ↔ SymmetricP T.P := columnByte_eq_row_iff_symmetric

/-- Settles O39: zero syndrome says that the parity byte is the recomputed one, that is, that the word is an encoder output;
there are 256 of these, closed under exclusive-or. -/
theorem zeroSyndromeIffValid : Obligations.ZeroSyndromeIffValid := by
  intro T h
  refine ⟨synd_eq_zero_iff_valid h, fun c => valid_iff_eq_encodeByte, ?count,
    fun c e hc he => ⟨valid_xor hc he, (synd_eq_zero_iff_valid h e).mpr he⟩⟩
  case count => rw [setOf_valid, ncard_range_encodeByte]

/-- Settles O40: an encoder output has syndrome zero, so all that decoding adds is the entry of syndrome zero. -/
theorem roundTripWithoutNoise : Obligations.RoundTripWithoutNoise := by
  intro d s h
  obtain ⟨t, encoded, codeword, decodes⟩ := exec_encode_decode d s
  obtain ⟨u, decoded, ports⟩ := decodes t.enc.codeword
  refine ⟨t, u, encoded, decoded, ?_, fun h0 => ?_⟩
  · rw [ports, codeword, decodePath_encodeByte h]
  · rw [ports, codeword, decodePath_encodeByte_of_wf_LUT0 h h0]
    exact ⟨rfl, rfl, rfl, rfl⟩

/-- Settles O41, by the decode ports of a codeword with an error in it. -/
theorem errorDecomposition : Obligations.ErrorDecomposition := by
  intro d x s h
  obtain ⟨t, encoded, codeword, decodes⟩ := exec_encode_decode d s
  obtain ⟨u, decoded, ports⟩ := decodes (t.enc.codeword ^^^ x)
  refine ⟨t, u, encoded, decoded, ?_⟩
  rw [ports, codeword]
  refine ⟨?_, ?_, ?_, decodePath_corrupted_data_eq_iff h⟩
  · rw [decodePath_corrupted h]
  · rw [decodePath_corrupted h, residualError]
  · rw [decodePath_corrupted h, residualError, BitVec.xor_assoc]

/-- Settles O42: an error that the table has is removed; `SEC_P` and `WF_LUT_SB` put every single bit into the table; and a
parity bit has low byte zero, so an entry with low byte zero leaves the byte alone. -/
theorem singleFlipIsCorrected : Obligations.SingleFlipIsCorrected := by
  intro d p s h
  obtain ⟨t, encoded, codeword, decodes⟩ := exec_encode_decode d s
  obtain ⟨u, decoded, ports⟩ := decodes (t.enc.codeword ^^^ oneBit 16 p)
  refine ⟨t, u, encoded, decoded, ?_⟩
  rw [ports, codeword]
  refine ⟨fun hentry => decodePath_removed h hentry d,
    fun hsec hlut => decodePath_removed h (eplook_oneBitSynd hsec hlut p) d, fun hp hlow => ?_⟩
  rw [decodePath_corrupted_data_eq_iff h, dataByte_residualError_eq_zero_iff, synd_oneBit_parity h hp, hlow]
  exact (bytes_oneBit_parity hp).2

/-- Settles O44: the entry is the error and leaves nothing of it, is another pattern, or is zero and leaves all of it. -/
theorem silentMiscorrection : Obligations.SilentMiscorrection := by
  intro d x s h
  obtain ⟨t, encoded, codeword, decodes⟩ := exec_encode_decode d s
  obtain ⟨u, decoded, ports⟩ := decodes (t.enc.codeword ^^^ x)
  refine ⟨t, u, encoded, decoded, ?_⟩
  rw [ports, codeword]
  refine ⟨fun hentry => decodePath_removed h hentry d, fun _ _ => ⟨?_, ?_⟩, fun hentry _ => ⟨?_, ?_⟩⟩
  · rw [decodePath_corrupted h, residualError]
  · exact (decodePath_corrupted_data_eq_iff h).trans dataByte_residualError_eq_zero_iff
  · rw [decodePath_corrupted h, residualError_of_zero_entry hentry]
  · rw [decodePath_corrupted_data_eq_iff h, residualError_of_zero_entry hentry]
    rfl

/-- Settles O45: `SEC_P` read on the columns, and as the least weight of a zero-syndrome word; one entry serves one error. -/
theorem singleErrorCorrectionIsDistanceThree : Obligations.SingleErrorCorrectionIsDistanceThree := by
  refine fun T h => ⟨sec_P_iff_columns h, sec_P_iff_distance h, fun p q hne hsynd both => ?_⟩
  obtain ⟨right_p, right_q⟩ := both 0
  rw [decodeCodeword_corrupted_eq_iff h] at right_p right_q
  have low : dataByte (oneBit 16 p) = dataByte (oneBit 16 q) := by rw [right_p, right_q, hsynd]
  exact oneBit_ne p.isLt q.isLt (Fin.val_ne_of_ne hne) (eq_of_synd_eq h hsynd low)

/-- Settles O47: a nonzero coset entry brings the word to syndrome zero; a table with one pattern that is no valid word at
every address spoils the zero word. -/
theorem cosetTableCorrectsToValidWords : Obligations.CosetTableCorrectsToValidWords := by
  refine ⟨fun c s h hcoset => ⟨_, exec_decode c s, valid_corrected_of_coset h hcoset, corrected_of_zero_entry⟩,
    ⟨⟨Vector.replicate 8 0, rowFormH (Vector.replicate 8 0), Vector.replicate 256 0x0100⟩,
      wf_H_rowFormH _ _, 0, ?_⟩⟩
  simp only [eplook_replicate]
  decide

/-- Settles O51: two parity bits that stand in one column of `P` are taken for the flip of that column's data bit, and the
encoding of 1 as an error has syndrome zero. -/
theorem guaranteeEndsAtOneBit : Obligations.GuaranteeEndsAtOneBit := by
  have h := wf_H_neighbourTables
  have hsec := sec_P_neighbourTables
  have h0 : WF_LUT0 neighbourTables := wf_LUT0_singleBitLUT hsec
  have hlut : WF_LUT_SB neighbourTables := wf_LUT_SB_singleBitLUT _ _
  refine ⟨neighbourTables, h, h0, hlut, hsec, wf_LUT_COSET_singleBitLUT _ _,
    ⟨0, 0x8100, by decide, ?two_bits⟩, 0, encodeByte neighbourP 1, by decide, synd_encodeByte h 1, ?valid_error⟩
  case two_bits =>
    have same_synd : synd neighbourTables.H 0x8100 = oneBitSynd neighbourTables.H 0 := by decide
    rw [ne_eq, decodeCodeword_corrupted_eq_iff h, same_synd, eplook_oneBitSynd hsec hlut]
    decide
  case valid_error =>
    have zero_synd : synd neighbourTables.H (encodeByte neighbourP 1) = 0#8 := synd_encodeByte h 1
    rw [ne_eq, decodeCodeword_corrupted_eq_iff h, zero_synd, h0]
    decide

/-- Settles O55, row by row. -/
theorem lawsHoldUnderTheirPremises : Obligations.LawsHoldUnderTheirPremises := by
  intro T law premises
  cases law with
  | linear => exact ⟨fun a b => ⟨pargen_xor T.P a b, encodeByte_xor T.P a b⟩, synd_xor T.H⟩
  | systematic => exact dataByte_encode T.P
  | parityDifference => exact synd_eq_parityDifference premises
  | zeroSyndrome => exact synd_encodeByte premises
  | zeroIffValid => exact synd_eq_zero_iff_valid premises
  | roundTrip => exact decodePath_encodeByte_of_wf_LUT0 premises.1 premises.2
  | errorDecomposition =>
    intro d x
    rw [decodePath_corrupted premises]
    exact ⟨rfl, rfl, rfl⟩
  | flipAt p => exact decodePath_removed premises.1 premises.2
  | flipAnywhere =>
    obtain ⟨h, hsec, hlut⟩ := premises
    exact fun p => decodePath_removed h (eplook_oneBitSynd hsec hlut p)
  | noOp => exact fun c => decodePath_zero_syndrome premises
  | validOrUnchanged =>
    obtain ⟨h, hcoset⟩ := premises
    exact fun c => ⟨valid_corrected_of_coset h hcoset, corrected_of_zero_entry⟩

/-- Settles O56: one set of tables refutes every law that has a premise. -/
theorem lawsWithPremisesNeedThem : Obligations.LawsWithPremisesNeedThem := by
  intro law
  by_cases hlinear : law = .linear
  · exact .inl fun _ => hlinear ▸ trivial
  by_cases hsystematic : law = .systematic
  · exact .inl fun _ => hsystematic ▸ trivial
  exact .inr ⟨refutingTables, not_premises_refutingTables hlinear hsystematic,
    not_holds_refutingTables hlinear hsystematic⟩

/-- Settles O43: the entry of syndrome zero is the zero pattern. -/
theorem zeroSyndromePassesThrough : Obligations.ZeroSyndromePassesThrough :=
  fun c s h0 hc => ⟨_, exec_decode c s, decodePath_zero_syndrome h0 hc⟩

/-- Settles O46: the ports after ENCODE and DECODE carry the worked example's words. -/
theorem workedExample : Obligations.WorkedExample := by
  intro s h
  have worked := workedExampleHolds h
  obtain ⟨t, encoded, codeword, decodes⟩ := exec_encode_decode 0xAA s
  obtain ⟨u, decoded_flip, ports_flip⟩ := decodes (t.enc.codeword ^^^ 0x2000)
  obtain ⟨v, decoded_clean, ports_clean⟩ := decodes t.enc.codeword
  refine ⟨worked, t, u, v, encoded, decoded_flip, decoded_clean, ?_⟩
  rw [ports_flip, ports_clean, codeword]
  exact ⟨worked.layout, worked.flipSyndrome, worked.flipCorrected, worked.clean⟩

end Sys2Proof.Machine
end

section
/-! PROOFS. Nothing stops the block: every operation answers a value (rule R200), a step stops only on a word that fits no
port (log entries 2, 7), and a run takes one waiting word a step, however long it is (rule R221). -/

namespace Sys2Proof.Machine

/-! What a step takes, and when it goes on. -/

/-- A step takes the next waiting word, if there is one (log entry 2). -/
theorem step_applied {s t : State} (h : step s = .next t) : t.applied = s.applied.tail := by
  obtain ⟨none_waits, rfl⟩ | ⟨a, rest, waits, -, hexec⟩ := step_cases h
  · rw [none_waits, List.tail_nil]
  · rw [exec_applied hexec, waits, List.tail_cons]

/-- Words that all fit their ports fit at the head of the list. -/
theorem head_wellFormed_of_inv {s : State} (hs : s.Inv) : ∀ a ∈ s.applied.head?, a.WellFormed :=
  fun a ha => hs.inputsFit a (List.mem_of_mem_head? ha)

/-! The statements. -/

/-- Settles O19: an operation drives the input of its own piece, and that is all it does. -/
theorem nothingTraps : Obligations.NothingTraps := by
  intro i s
  obtain ⟨f, -, completes⟩ := exec_drives i
  exact ⟨f s, completes s⟩

/-- Settles O54: with no word waiting nothing changes; a fitting word decodes, and its operation completes. -/
theorem stepGoesOnWhereTheWordFits : Obligations.StepGoesOnWhereTheWordFits := by
  intro s head_fits
  cases happ : s.applied with
  | nil => exact ⟨s, step_nil happ⟩
  | cons a rest =>
    have fits : a.WellFormed := head_fits a (by simp [happ])
    rw [step_ok happ (decodeInstr_of_wellFormed fits)]
    exact nothingTraps _ _

/-- Settles O24, by induction on the number of steps, for every starting state: a step from a state that meets the
invariant goes on to one that meets it. -/
theorem runsNeverStop : Obligations.RunsNeverStop := by
  intro k
  induction k with
  | zero => exact fun s hs => ⟨s, rfl, hs, rfl, List.drop_zero.symm⟩
  | succ k ih =>
    intro s hs
    obtain ⟨t, hstep⟩ := stepGoesOnWhereTheWordFits s (head_wellFormed_of_inv hs)
    obtain ⟨u, hrun, inv, tables, applied⟩ := ih t (step_keeps_inv hs hstep)
    refine ⟨u, (run_of_step hstep).trans hrun, inv, tables.trans (step_tables hstep), ?_⟩
    rw [applied, step_applied hstep, List.drop_tail]

end Sys2Proof.Machine
end

section
/-! PROOFS. Establishing the constants (rule R222): the exhaustive checks over all bytes and positions follow from the
premises that are checked before them. -/

namespace Sys2Proof.Machine

/-- DECODE's byte is the data output of the decode path, so the laws about the path say it of the checks too (rule R152). -/
theorem decodeCodeword_eq_decodePath_data (T : Tables) (c : Word) :
    decodeCodeword T.H T.LUT c = (decodePath T c).data := rfl

/-- Check 3 from checks 1 and 2 (rules R172, R174). -/
theorem roundTripCheck_of_wf_LUT0 {T : Tables} (h : WF_H T) (h0 : WF_LUT0 T) : RoundTripCheck T := by
  refine fun d => ⟨synd_encodeByte h _, ?_⟩
  rw [decodeCodeword_eq_decodePath_data, decodePath_encodeByte_of_wf_LUT0 h h0]

/-- The exhaustive form of check 5 from checks 1 and 4 and `WF_LUT_SB`: every single bit is the entry at its own syndrome, so
decoding removes it (rules R25, R176). -/
theorem singleFlipCheck_of_sec_P {T : Tables} (h : WF_H T) (hsec : SEC_P T) (hlut : WF_LUT_SB T) :
    SingleFlipCheck T := by
  intro d p
  obtain ⟨data, -⟩ := decodePath_removed h (eplook_oneBitSynd hsec hlut p) (BitVec.ofFin d)
  rw [decodeCodeword_eq_decodePath_data, data]

/-- Settles O53: under `WF_H` an encoder output has syndrome zero, whose entry `WF_LUT0` fixes, and a flipped bit leaves its
own syndrome, whose entry `SEC_P` and `WF_LUT_SB` fix. -/
theorem constructionChecksAreImplied : Obligations.ConstructionChecksAreImplied :=
  fun _ h => ⟨roundTripCheck_of_wf_LUT0 h, singleFlipCheck_of_sec_P h⟩

end Sys2Proof.Machine
end
